-- ==== Sys2Proof/Word.lean ====
section
/-! DEFINITION. The block's plainest types: the byte and the pixel (00_scope.md R8, R13). -/

namespace Sys2Proof

/-- One 8-bit value `u8` (R8, R12). -/
abbrev Byte := BitVec 8

/-- A pixel register: four independent 8-bit channels and no other bits (R13, R22). -/
structure Pixel where
  r : Byte
  g : Byte
  b : Byte
  a : Byte
  deriving DecidableEq, Repr, Inhabited

end Sys2Proof
end

