-- ==== Sys2Proof/Syntax.lean ====
section
/-! DEFINITION. The block's "instructions": the six chunk kinds of the wire format (00_scope.md R7, R19), one
constructor per row of spec/opcode_table.json, with the operands of the listing syntax (30_encoding.md R99). -/

namespace Sys2Proof

/-- A chunk. Operand ranges that the types do not carry are checked in WellFormed.lean (R93, R99). -/
inductive Instr where
  /-- `RGB r, g, b` (R89, R172). -/
  | rgb (r g b : Byte)
  /-- `RGBA r, g, b, a` (R90, R173). -/
  | rgba (r g b a : Byte)
  /-- `RUN n`: `n` repetitions of the previous pixel, stored value `n - 1` (R88, R174). -/
  | run (n : Nat)
  /-- `INDEX i`: history slot `i` (R85, R175). -/
  | index (i : Fin 64)
  /-- `DIFF dr, dg, db` (R86, R176). -/
  | diff (dr dg db : Int)
  /-- `LUMA dg, dr_dg, db_dg` (R87, R177). -/
  | luma (dg drDg dbDg : Int)
  deriving DecidableEq, Repr

end Sys2Proof
end

