-- ==== Sys2Proof/WellFormed.lean ====
section
/-! DEFINITION. Which terms spell a chunk: the operand ranges of 30_encoding.md R93 and R99. -/

namespace Sys2Proof

/-- `v ∈ [lo, hi]` (R12). -/
def inRange (lo hi v : Int) : Bool := decide (lo ≤ v) && decide (v ≤ hi)

/-- "An operand outside its range does not spell a record and an assembler refuses it; in particular `RUN 63` and
`RUN 64` are refused" (R99). -/
def wellFormed : Instr → Bool
  | .rgb _ _ _ => true
  | .rgba _ _ _ _ => true
  | .run n => inRange 1 62 n
  | .index _ => true
  | .diff dr dg db => inRange (-2) 1 dr && inRange (-2) 1 dg && inRange (-2) 1 db
  | .luma dg drDg dbDg => inRange (-32) 31 dg && inRange (-8) 7 drDg && inRange (-8) 7 dbDg

end Sys2Proof
end

