-- ==== Sys2Proof/Decode.lean ====
section
/-! DEFINITION. The wire format of the chunks (30_encoding.md R84 to R95): classification of a tag byte, the decoder
from bytes to a chunk, and the encoder from a chunk to its bytes. -/

namespace Sys2Proof

/-! ## Classification of the tag byte -/

/-- The six chunk kinds. The source's seventh answer, UNKNOWN, cannot occur (R91, R95), and R179 lets a model omit
it. -/
inductive Kind where
  | rgb | rgba | run | index | diff | luma
  deriving DecidableEq, Repr

/-- `Kind(t)`: exact values first, then the top two bits (R91). -/
def kind (t : Byte) : Kind :=
  if t = 0xFE then .rgb
  else if t = 0xFF then .rgba
  else if t.extractLsb' 6 2 = 0b11 then .run
  else if t.extractLsb' 6 2 = 0b00 then .index
  else if t.extractLsb' 6 2 = 0b01 then .diff
  else .luma

/-- `Len(t)`: the chunk's length in bytes, a function of the tag alone (R92). -/
def chunkLen (t : Byte) : Nat :=
  if t = 0xFE then 4
  else if t = 0xFF then 5
  else if t.extractLsb' 6 2 = 0b10 then 2
  else 1

/-! ## Bytes to a chunk -/

/-- Why bytes are not a chunk. The one reason is that they end too early: no tag byte is illegal (R95). -/
inductive Reject where
  | truncated
  deriving DecidableEq, Repr

/-- An operand field: `len` bits of `byte` from bit `lo`, less its bias (R93: "never by sign extension"). -/
def biasedField (byte : Byte) (lo len : Nat) (bias : Int) : Int :=
  (byte.extractLsb' lo len).toNat - bias

/-- The first chunk of a byte sequence, and the bytes after it. -/
def decode : List Byte → Except Reject (Instr × List Byte)
  | [] => .error .truncated
  | t :: bytes =>
    match kind t, bytes with
    | .rgb, r :: g :: b :: rest => .ok (.rgb r g b, rest)
    | .rgba, r :: g :: b :: a :: rest => .ok (.rgba r g b a, rest)
    | .run, rest => .ok (.run ((t.extractLsb' 0 6).toNat + 1), rest)
    | .index, rest => .ok (.index (t.extractLsb' 0 6).toFin, rest)
    | .diff, rest => .ok (.diff (biasedField t 4 2 2) (biasedField t 2 2 2) (biasedField t 0 2 2), rest)
    | .luma, u :: rest => .ok (.luma (biasedField t 0 6 32) (biasedField u 4 4 8) (biasedField u 0 4 8), rest)
    | .rgb, _ => .error .truncated
    | .rgba, _ => .error .truncated
    | .luma, [] => .error .truncated

/-! ## A chunk to its bytes -/

/-- A signed operand plus its bias, as a byte (R93). -/
def biasedByte (v bias : Int) : Byte := BitVec.ofInt 8 (v + bias)

/-- The bytes of a chunk (R85 to R90, R99). -/
def encode : Instr → List Byte
  | .rgb r g b => [0xFE, r, g, b]
  | .rgba r g b a => [0xFF, r, g, b, a]
  | .run n => [0xC0 ||| BitVec.ofNat 8 (n - 1)]
  | .index i => [0x00 ||| BitVec.ofNat 8 i.val]
  | .diff dr dg db => [0x40 ||| (biasedByte dr 2 <<< 4) ||| (biasedByte dg 2 <<< 2) ||| biasedByte db 2]
  | .luma dg drDg dbDg => [0x80 ||| biasedByte dg 32, (biasedByte drDg 8 <<< 4) ||| biasedByte dbDg 8]

/-- The chunk's length in bytes (R97). -/
def Instr.length : Instr → Nat
  | .rgb _ _ _ => 4
  | .rgba _ _ _ _ => 5
  | .run _ => 1
  | .index _ => 1
  | .diff _ _ _ => 1
  | .luma _ _ _ => 2

/-! ## The opcode table's numbering -/

/-- The bytes of a table word: bit 0 is the least significant bit of the first byte; bits from `nbits` on are 0; five
bytes, the longest chunk (R97). -/
def tableBytes (nbits w : Nat) : List Byte :=
  [BitVec.ofNat 8 (w % 2 ^ nbits),
   BitVec.ofNat 8 (w % 2 ^ nbits / 2 ^ 8),
   BitVec.ofNat 8 (w % 2 ^ nbits / 2 ^ 16),
   BitVec.ofNat 8 (w % 2 ^ nbits / 2 ^ 24),
   BitVec.ofNat 8 (w % 2 ^ nbits / 2 ^ 32)]

/-- The chunk the decoder reads from a word numbered as spec/opcode_table.json numbers it. -/
def decodeTableWord (nbits w : Nat) : Option Instr :=
  match decode (tableBytes nbits w) with
  | .ok (i, _) => some i
  | .error _ => none

end Sys2Proof
end

