-- ==== Sys2Proof/Config.lean ====
section
/-! DEFINITION. What one implementation of the block fixes (00_scope.md R9 to R11: P_HASH, P_DELTA_ARITH,
BUS_BINDING), the names of the HOST's commands and readable registers (10_state.md R45), and the values the spec
leaves free after a hardware reset (R50, R51). -/

namespace Sys2Proof

/-! ## P_HASH and P_DELTA_ARITH -/

/-- Which `P_HASH` the block instance has (R9): the spec's default formula, or another pure function onto 0..63,
about which nothing is known but that it is a function (`Config.otherHash`). -/
inductive HashChoice where
  | default
  | other
  deriving DecidableEq, Repr

/-- `P_DELTA_ARITH` (R10): how the encoder computes channel differences. -/
inductive DeltaArith where
  | wrap8
  | exact
  deriving DecidableEq, Repr

/-- The parameters of one block instance that its rules read. They are fixed: no step changes them. -/
structure Params where
  hash       : HashChoice
  deltaArith : DeltaArith
  deriving DecidableEq, Repr

/-- The defaults the spec takes (R9, R10). -/
def Params.default : Params := { hash := .default, deltaArith := .wrap8 }

/-- The colour hash of an instance that does not have the default one: uninterpreted, so a statement over every
state holds for every `P_HASH` (R9: "claims about the block should assume only the contract"). Log entry 1. -/
opaque Config.otherHash : Pixel → Fin 64

/-! ## The HOST's commands and the registers it can read -/

/-- The encoder registers marked "read" in the table of 10_state.md section 2. -/
inductive EncReg where
  | width | height | channels | colorspace | left | outpos | status
  deriving DecidableEq, Repr

/-- The decoder registers marked "read" in the table of 10_state.md section 3. -/
inductive DecReg where
  | width | height | channels | colorspace | left | inpos | status
  deriving DecidableEq, Repr

/-- One readable register of one engine; engines are numbered from 0 (R226). -/
inductive HostReg where
  | enc (k : Nat) (r : EncReg)
  | dec (k : Nat) (r : DecReg)
  deriving DecidableEq, Repr

/-- What the HOST can do to an engine (R45, R46). -/
inductive HostCmd where
  /-- `ENC_START(width, height, channels, colorspace)` to encoder `k` (R111). -/
  | encStart (k : Nat) (w h : BitVec 32) (ch cs : Byte)
  /-- The HOST appends pixels to encoder `k`'s pixel input (R46). -/
  | encPixels (k : Nat) (ps : List Pixel)
  /-- `ENC_ABORT` (R220). -/
  | encAbort (k : Nat)
  /-- `DEC_START(src)` to decoder `k` (R116). -/
  | decStart (k : Nat) (src : List Byte)
  /-- `DEC_ABORT` (R220). -/
  | decAbort (k : Nat)
  /-- A read of a register marked "read" (R45). -/
  | read (r : HostReg)
  deriving DecidableEq, Repr

/-- `BUS_BINDING` (R11, R45), left OPEN by the spec: which command or read, if any, a bus access of some bytes at
some address carries. Uninterpreted. Log entry 3. -/
opaque Config.busBinding : Nat → List Byte → Option HostCmd

/-! ## Values that a hardware reset leaves unspecified (R50, R51; 93_implementation_defined.md I6)

Each is a free value: drawn by the number of the reset and the engine's number. Log entry 5. -/

/-- `E.PP` after a hardware reset. -/
opaque Config.freeEncPP : Nat → Nat → Pixel
/-- Slot `i` of `E.H` after a hardware reset. -/
opaque Config.freeEncSlot : Nat → Nat → Fin 64 → Pixel
/-- `E.RUN` after a hardware reset. -/
opaque Config.freeEncRun : Nat → Nat → BitVec 7
/-- `D.PP` after a hardware reset. -/
opaque Config.freeDecPP : Nat → Nat → Pixel
/-- Slot `i` of `D.H` after a hardware reset. -/
opaque Config.freeDecSlot : Nat → Nat → Fin 64 → Pixel

end Sys2Proof
end

