-- ==== Sys2Proof/Machine/Pixels.lean ====
section
/-! DEFINITION. The notation's primitives over numbers and pixels (00_scope.md R12, R13) and the two fixed byte
sequences of the wire format (30_encoding.md R81, R98). -/

namespace Sys2Proof

/-- `wrap8(v) = v mod 256`, as a byte (R12). -/
def wrap8 (v : Int) : Byte := BitVec.ofInt 8 v

/-- `s8(v)`: the signed 8-bit reading of `v mod 256`, in -128..127 (R12). -/
def s8 (v : Int) : Int := if 128 ≤ v % 256 then v % 256 - 256 else v % 256

/-- `BE32(b0, b1, b2, b3)` (R12, R63). -/
def be32 (b0 b1 b2 b3 : Byte) : BitVec 32 := b0 ++ b1 ++ b2 ++ b3

/-- The four bytes of a 32-bit integer, most significant first (R15 `OutBE32`, R63). -/
def be32Bytes (v : BitVec 32) : List Byte :=
  [v.extractLsb' 24 8, v.extractLsb' 16 8, v.extractLsb' 8 8, v.extractLsb' 0 8]

/-- `width * height` as an exact product in a u64 (R30, R37, R83). -/
def pixelCount (w h : BitVec 32) : BitVec 64 := w.setWidth 64 * h.setWidth 64

/-- `SEED` (R13). -/
def Pixel.seed : Pixel := { r := 0, g := 0, b := 0, a := 255 }

/-- `ZERO` (R13). -/
def Pixel.zero : Pixel := { r := 0, g := 0, b := 0, a := 0 }

/-- A pixel register shown as one 32-bit word: r at [31:24], g at [23:16], b at [15:8], a at [7:0] (R22). -/
def Pixel.toWord (p : Pixel) : BitVec 32 := p.r ++ p.g ++ p.b ++ p.a

/-- The header's magic, "qoif" (R81, R82). -/
def magic : List Byte := [0x71, 0x6F, 0x69, 0x66]

/-- The terminator: seven zero bytes and one byte equal to 1 (R98). -/
def terminator : List Byte := [0, 0, 0, 0, 0, 0, 0, 1]

/-- The 14 header bytes: magic, width, height, channels, colorspace (R81, R83). -/
def headerBytes (w h : BitVec 32) (ch cs : Byte) : List Byte :=
  magic ++ be32Bytes w ++ be32Bytes h ++ [ch, cs]

end Sys2Proof
end

