-- ==== Sys2Proof/Machine/State.lean ====
section
/-! DEFINITION. The whole architectural state of the block (10_state.md), as plain data, its reset value, and the
reasons a step can stop. -/

namespace Sys2Proof.Machine

/-- The history cache of an engine: 64 slots of one Pixel each (R27, R36). -/
abbrev History := Vector Pixel 64

/-! ## Encoder engine -/

/-- `E.PHASE` (R23). -/
inductive EncPhase where
  | idle | pixels | finish | done
  deriving DecidableEq, Repr

/-- The state of one encoder engine (10_state.md section 2, R46, R47). -/
structure Enc where
  /-- `E.PHASE` -/
  phase      : EncPhase
  /-- `E.WIDTH` -/
  width      : BitVec 32
  /-- `E.HEIGHT` -/
  height     : BitVec 32
  /-- `E.CHANNELS` -/
  channels   : Byte
  /-- `E.COLORSPACE` -/
  colorspace : Byte
  /-- `E.PP`, the previous pixel -/
  pp         : Pixel
  /-- `E.H[0..63]` -/
  hist       : History
  /-- `E.RUN`, the run counter -/
  run        : BitVec 7
  /-- `E.LEFT` -/
  left       : BitVec 64
  /-- `E.OUTPOS` -/
  outpos     : BitVec 64
  /-- `E.STATUS` -/
  status     : Byte
  /-- The byte output: position `n` is element `n` (R47, R60) -/
  output     : List Byte
  /-- The pixel input, next pixel first (R46) -/
  input      : List Pixel
  deriving DecidableEq, Repr

/-! ## Decoder engine -/

/-- `D.PHASE` (R32). -/
inductive DecPhase where
  | idle | header | chunks | trailer | done
  deriving DecidableEq, Repr

/-- The state of one decoder engine (10_state.md section 3, R48, R49). -/
structure Dec where
  /-- `D.PHASE` -/
  phase      : DecPhase
  /-- `D.WIDTH` -/
  width      : BitVec 32
  /-- `D.HEIGHT` -/
  height     : BitVec 32
  /-- `D.CHANNELS` -/
  channels   : Byte
  /-- `D.COLORSPACE` -/
  colorspace : Byte
  /-- `D.PP`, the previous pixel -/
  pp         : Pixel
  /-- `D.H[0..63]` -/
  hist       : History
  /-- `D.LEFT` -/
  left       : BitVec 64
  /-- `D.INPOS` -/
  inpos      : BitVec 64
  /-- `D.STATUS` -/
  status     : Byte
  /-- The byte input `src`: position `n` is element `n` (R48, R60) -/
  src        : List Byte
  /-- The pixel output, first pixel first (R49) -/
  output     : List Pixel
  deriving DecidableEq, Repr

/-- The numeric encoding of `E.PHASE` (R23). -/
def EncPhase.code : EncPhase → BitVec 2
  | .idle => 0 | .pixels => 1 | .finish => 2 | .done => 3

/-- The numeric encoding of `D.PHASE`; 5..7 are never taken (R32). -/
def DecPhase.code : DecPhase → BitVec 3
  | .idle => 0 | .header => 1 | .chunks => 2 | .trailer => 3 | .done => 4

/-! ## The block -/

/-- One engine of the block, by its number from 0 (R226). -/
inductive EngineId where
  | enc (k : Nat)
  | dec (k : Nat)
  deriving DecidableEq, Repr

/-- One thing that happens to the block next. The list of them is the MODEL's own (log entry 2): it writes down, as
plain data, what the HOST does and which engine moves when, so that every HOST and every interleaving is a state. -/
inductive Move where
  /-- The HOST gives a command or a read, named (R45). -/
  | cmd (c : HostCmd)
  /-- The HOST makes a bus access; `BUS_BINDING` says which command it carries (R11, R45). -/
  | bus (addr : Nat) (data : List Byte)
  /-- An engine may take its one enabled step (R24, R33). -/
  | tick (e : EngineId)
  /-- Hardware reset (R240). -/
  | hardReset
  deriving DecidableEq, Repr

/-- The block: its parameters, its `N_ENC` encoder engines and `N_DEC` decoder engines (R11, R226), and the model's
own bookkeeping. -/
structure State where
  /-- P_HASH and P_DELTA_ARITH (R9, R10). -/
  params : Params
  /-- The encoder engines; `N_ENC` is the length. -/
  encs   : List Enc
  /-- The decoder engines; `N_DEC` is the length. -/
  decs   : List Dec
  /-- The MODEL's own: what happens next, first move first (log entry 2). -/
  agenda : List Move
  /-- The MODEL's own: the number of the decoder engine whose chunk `exec` runs (log entry 4). -/
  sel    : Nat
  /-- The MODEL's own: how many hardware resets there were; draws the free values of R50 and R51 (log entry 5). -/
  resets : Nat
  deriving DecidableEq, Repr

/-! ## Why a step stops -/

/-- Faults. There is none: the block takes no trap (R210), the encoder has no error (R216), and a decoder error ends
the job in phase DONE with a code in `D.STATUS`, which is a next state (R211). The type is empty, so no step can
fault. -/
inductive Fault where
  deriving DecidableEq, Repr

/-- Refusals: moves the spec says the model does not offer. Each is safe: the model stops where the spec gives no
behaviour. -/
inductive Refusal where
  /-- An instruction with no meaning yet. No arm of `exec` answers it in this model. -/
  | notModelled (mnemonic : String)
  /-- A start command while the engine is BUSY: "a model gives the HOST no such move" (R221, I13). Raised by
  ENC_START and DEC_START. Safe. -/
  | startWhileBusy
  /-- A command, tick or chunk for an engine number that the block does not have (R11, R226). Safe. -/
  | noSuchEngine
  /-- A chunk asked of a decoder that is not in phase CHUNKS, where `DecChunk` is not enabled (R170). `step` never
  asks it. Safe. -/
  | chunkNotEnabled
  /-- A job whose output, or a `src` whose length, reaches 2^64 bytes: "outside the model" (R31, R39, I20). Raised by
  the encoder's steps and DEC_START. Safe. -/
  | streamTooLong
  /-- A bus access to which `BUS_BINDING` gives no command (R11). Safe. -/
  | unboundBusAccess
  deriving DecidableEq, Repr

/-! ## Reset -/

/-- An encoder after hardware reset, given the values the spec leaves unspecified (R50). -/
def Enc.afterReset (pp : Pixel) (hist : History) (run : BitVec 7) : Enc :=
  { phase := .idle, width := 0, height := 0, channels := 0, colorspace := 0, pp := pp, hist := hist, run := run
    left := 0, outpos := 0, status := 0, output := [], input := [] }

/-- A decoder after hardware reset, given the values the spec leaves unspecified (R51). -/
def Dec.afterReset (pp : Pixel) (hist : History) : Dec :=
  { phase := .idle, width := 0, height := 0, channels := 0, colorspace := 0, pp := pp, hist := hist
    left := 0, inpos := 0, status := 0, src := [], output := [] }

/-- The block right after reset, with the default parameters and one engine of each kind (R9 to R11, R50, R51, R240).
PP, H and RUN are zero, where the spec says "any value" (DESIGN CHOICE, log entry 6). -/
def State.reset : State :=
  { params := .default
    encs := [Enc.afterReset .zero (Vector.replicate 64 .zero) 0]
    decs := [Dec.afterReset .zero (Vector.replicate 64 .zero)]
    agenda := [], sel := 0, resets := 0 }

end Sys2Proof.Machine
end

