-- ==== Sys2Proof/Machine/Flags.lean ====
section
/-! DEFINITION. The 8-bit status register of an engine: its fields, and its writers (10_state.md R42 to R44). -/

namespace Sys2Proof.Machine

/-- The error codes of `STATUS.ERR` (R43). -/
inductive ErrCode where
  | none
  | badMagic
  /-- Reserved for "unknown chunk tag": no step raises it (R43, R213). -/
  | badTag
  | badTrailer
  | truncated
  deriving DecidableEq, Repr

/-- The numeric value of an error code (R43). -/
def ErrCode.code : ErrCode → BitVec 3
  | .none => 0 | .badMagic => 1 | .badTag => 2 | .badTrailer => 3 | .truncated => 4

/-! ## Reading the fields (R42) -/

/-- BUSY, bit 0. -/
def statusBusy (st : Byte) : Bool := st.getLsbD 0
/-- DONE, bit 1. -/
def statusDone (st : Byte) : Bool := st.getLsbD 1
/-- OK, bit 2. -/
def statusOk (st : Byte) : Bool := st.getLsbD 2
/-- ERR, bits [5:3]. -/
def statusErr (st : Byte) : BitVec 3 := st.extractLsb' 3 3
/-- HDR, bit 6. -/
def statusHdr (st : Byte) : Bool := st.getLsbD 6

/-! ## Writing the fields -/

/-- Write one bit of a status register. -/
def statusSetBit (i : Nat) (v : Bool) (st : Byte) : Byte :=
  if v then st ||| ((1 : Byte) <<< i) else st &&& ~~~((1 : Byte) <<< i)

/-- Write ERR. -/
def statusSetErr (c : ErrCode) (st : Byte) : Byte :=
  (st &&& 0xC7) ||| (c.code.setWidth 8 <<< 3)

/-- What a start step leaves: `STATUS <- 0; BUSY <- 1` (R44, R111, R116). -/
def statusStarted : Byte := statusSetBit 0 true 0

/-- What `EncFinish` leaves: `STATUS <- 0; DONE <- 1; OK <- 1` (R44, R113). -/
def statusEncDone : Byte := statusSetBit 2 true (statusSetBit 1 true 0)

/-- `HDR <- 1` (R44, R117). -/
def statusHeaderAccepted (st : Byte) : Byte := statusSetBit 6 true st

/-- `BUSY <- 0; DONE <- 1`, then `OK` and `ERR`; HDR as it was (R44, R121, R211). -/
def statusEnd (ok : Bool) (c : ErrCode) (st : Byte) : Byte :=
  statusSetErr c (statusSetBit 2 ok (statusSetBit 1 true (statusSetBit 0 false st)))

end Sys2Proof.Machine
end

