-- ==== Sys2Proof/Machine/Operands.lean ====
section
/-! DEFINITION. Operands of the chunk rules: the colour hash (00_scope.md R9), the channel arithmetic of the decoder
(42_decoder.md R176, R177), the formed pixel and the channel differences of the encoder (41_encoder.md R131, R133),
and the history cache's slots (10_state.md R27, R36). -/

namespace Sys2Proof.Machine

/-- The spec's default `P_HASH(p) = (3*p.r + 5*p.g + 7*p.b + 11*p.a) mod 64` (R9). PRESUMED, log entry 1. -/
def defaultHash (p : Pixel) : Fin 64 :=
  Fin.ofNat 64 (3 * p.r.toNat + 5 * p.g.toNat + 7 * p.b.toNat + 11 * p.a.toNat)

/-- `P_HASH`, the same for every engine of the block (R9). -/
def pHash (P : Params) (p : Pixel) : Fin 64 :=
  match P.hash with
  | .default => defaultHash p
  | .other => Config.otherHash p

/-- `H[i]`. -/
def readSlot (h : History) (i : Fin 64) : Pixel := h.get i

/-- `H[i] <- p`. -/
def writeSlot (h : History) (i : Fin 64) (p : Pixel) : History := h.set i.val p i.isLt

/-- Every slot ZERO, as the start steps leave it (R111, R116). -/
def clearedHistory : History := Vector.replicate 64 .zero

/-- A channel plus a signed difference, modulo 256 (R94, R176, R177). -/
def addChannel (c : Byte) (v : Int) : Byte := wrap8 (c.toNat + v)

/-- `Form(q)`: alpha counts only in a 4-channel job (R131). -/
def formPixel (channels : Byte) (q : Pixel) : Pixel :=
  if channels = 4 then q else { q with a := 255 }

/-- The five differences `Deltas` returns (R133). -/
structure Deltas where
  dr   : Int
  dg   : Int
  db   : Int
  drDg : Int
  dbDg : Int
  deriving DecidableEq, Repr

/-- A channel difference under `P_DELTA_ARITH` (R133). -/
def deltaOf (m : DeltaArith) (v : Int) : Int :=
  match m with
  | .wrap8 => s8 v
  | .exact => v

/-- `Deltas(P, PP)` (R133). -/
def deltas (m : DeltaArith) (p pp : Pixel) : Deltas :=
  let dr := deltaOf m ((p.r.toNat : Int) - pp.r.toNat)
  let dg := deltaOf m ((p.g.toNat : Int) - pp.g.toNat)
  let db := deltaOf m ((p.b.toNat : Int) - pp.b.toNat)
  { dr := dr, dg := dg, db := db, drDg := deltaOf m (dr - dg), dbDg := deltaOf m (db - dg) }

end Sys2Proof.Machine
end

