-- ==== Sys2Proof/Machine/Ops.lean ====
section
/-! DEFINITION. The shared operations: engines of the block, the stream primitives (00_scope.md R15, 20_memory.md),
ending a decoder job with an error (60_exceptions.md R211), and the post-processing of a chunk (42_decoder.md R178,
R180). -/

namespace Sys2Proof.Machine

/-- What a step of the block comes to. -/
abbrev Outcome := Host.Outcome State Fault Refusal

/-! ## Engines of the block -/

/-- Encoder `k` becomes `e`. -/
def State.setEnc (s : State) (k : Nat) (e : Enc) : State := { s with encs := s.encs.set k e }

/-- Decoder `k` becomes `d`. -/
def State.setDec (s : State) (k : Nat) (d : Dec) : State := { s with decs := s.decs.set k d }

/-- An encoder's step ends in `e`, unless its output has reached 2^64 bytes, which is outside the model (R31, I20). -/
def State.putEnc (s : State) (k : Nat) (e : Enc) : Outcome :=
  if e.output.length < 2 ^ 64 then .next (s.setEnc k e) else .refused .streamTooLong

/-! ## The encoder's byte output -/

/-- `OutByte(v)` (R15, R47). -/
def Enc.outByte (e : Enc) (v : Byte) : Enc :=
  { e with output := e.output ++ [v], outpos := e.outpos + 1 }

/-- `OutByte` of each byte in order. -/
def Enc.outBytes (e : Enc) : List Byte → Enc
  | [] => e
  | v :: vs => (e.outByte v).outBytes vs

/-- The encoder emits a chunk. -/
def Enc.emit (e : Enc) (i : Instr) : Enc := e.outBytes (encode i)

/-! ## The decoder's byte input -/

/-- What a stretch of a decoder step comes to: a value, or `raise Fail(code)`; either way with the engine as the
reads and writes made so far left it (R15, R211). -/
inductive Read (α : Type) where
  | got (v : α) (d : Dec)
  | failed (code : ErrCode) (d : Dec)

/-- Then go on, unless a failure was raised: "no further statement of the step runs" (R211). -/
def Read.bind {α β : Type} (m : Read α) (f : α → Dec → Read β) : Read β :=
  match m with
  | .got v d => f v d
  | .failed code d => .failed code d

/-- Byte `a` of the decoder's input, if it exists (R48, R60). -/
def Dec.srcByte (d : Dec) (a : Nat) : Option Byte := d.src[a]?

/-- Byte `a` of the encoder's output, if it exists (R60). -/
def Enc.outputByte (e : Enc) (a : Nat) : Option Byte := e.output[a]?

/-- `InByte()`: the next byte of `src`, or TRUNCATED when no byte remains (R15, R48, R214). -/
def Dec.inByte (d : Dec) : Read Byte :=
  match d.srcByte d.inpos.toNat with
  | some b => .got b { d with inpos := d.inpos + 1 }
  | none => .failed .truncated d

/-- `n` times `InByte()`. -/
def Dec.inBytes (d : Dec) : Nat → Read (List Byte)
  | 0 => .got [] d
  | n + 1 => d.inByte.bind fun b d => (d.inBytes n).bind fun bs d => .got (b :: bs) d

/-- `InBE32()`: four `InByte()` in order, most significant first (R15, R63). -/
def Dec.inBE32 (d : Dec) : Read (BitVec 32) :=
  d.inByte.bind fun b0 d => d.inByte.bind fun b1 d => d.inByte.bind fun b2 d => d.inByte.bind fun b3 d =>
    .got (be32 b0 b1 b2 b3) d

/-! ## An error ends the job -/

/-- `raise Fail(code)`: the job ends in DONE with the code, HDR and everything else as it was (R211). -/
def Dec.fail (d : Dec) (code : ErrCode) : Dec :=
  { d with status := statusEnd false code d.status, phase := .done }

/-- The engine at the end of a step, the failure taken if one was raised (R211). -/
def Read.settle (m : Read Dec) : Dec :=
  match m with
  | .got d _ => d
  | .failed code d => d.fail code

/-! ## Chunks -/

/-- `if D.LEFT == 0: D.PHASE <- TRAILER` (R180). -/
def Dec.endChunk (d : Dec) : Dec := if d.left = 0 then { d with phase := .trailer } else d

/-- The post-processing of every chunk but RUN: output the pixel, write its slot, make it the previous pixel, count it
(R178). -/
def Dec.takePixel (P : Params) (d : Dec) (px : Pixel) : Dec :=
  { d with output := d.output ++ [px], hist := writeSlot d.hist (pHash P px) px, pp := px, left := d.left - 1 }

/-- A chunk's effect on the decoder whose chunk is run. `DecChunk` is enabled in phase CHUNKS (R170). -/
def State.onChunk (s : State) (f : Dec → Dec) : Outcome :=
  match s.decs[s.sel]? with
  | none => .refused .noSuchEngine
  | some d =>
    match d.phase with
    | .chunks => .next (s.setDec s.sel (f d))
    | .idle => .refused .chunkNotEnabled
    | .header => .refused .chunkNotEnabled
    | .trailer => .refused .chunkNotEnabled
    | .done => .refused .chunkNotEnabled

end Sys2Proof.Machine
end

