-- ==== Sys2Proof/Machine/Delta.lean ====
section
/-! DEFINITION. The chunks that carry channel differences, DIFF and LUMA, on decode (42_decoder.md R176, R177). -/

namespace Sys2Proof.Machine

/-- DIFF's pixel: each of r, g, b moved by its difference, modulo 256; the previous alpha (R176). -/
def diffPixel (pp : Pixel) (dr dg db : Int) : Pixel :=
  { r := addChannel pp.r dr, g := addChannel pp.g dg, b := addChannel pp.b db, a := pp.a }

def Dec.diff (P : Params) (dr dg db : Int) (d : Dec) : Dec :=
  (d.takePixel P (diffPixel d.pp dr dg db)).endChunk

def execDiff (dr dg db : Int) (s : State) : Outcome := s.onChunk (Dec.diff s.params dr dg db)

/-- LUMA's pixel: g moved by `dg`, r by `dr_dg + dg`, b by `db_dg + dg`, modulo 256; the previous alpha (R177). -/
def lumaPixel (pp : Pixel) (dg drDg dbDg : Int) : Pixel :=
  { r := addChannel pp.r (drDg + dg), g := addChannel pp.g dg, b := addChannel pp.b (dbDg + dg), a := pp.a }

def Dec.luma (P : Params) (dg drDg dbDg : Int) (d : Dec) : Dec :=
  (d.takePixel P (lumaPixel d.pp dg drDg dbDg)).endChunk

def execLuma (dg drDg dbDg : Int) (s : State) : Outcome := s.onChunk (Dec.luma s.params dg drDg dbDg)

end Sys2Proof.Machine
end

