-- ==== Sys2Proof/Machine/Literal.lean ====
section
/-! DEFINITION. The literal chunks, RGB and RGBA, on decode (42_decoder.md R172, R173). -/

namespace Sys2Proof.Machine

/-- RGB: the pixel's channels are the bytes; alpha is the previous pixel's (R172). -/
def Dec.rgb (P : Params) (r g b : Byte) (d : Dec) : Dec :=
  (d.takePixel P { r := r, g := g, b := b, a := d.pp.a }).endChunk

def execRgb (r g b : Byte) (s : State) : Outcome := s.onChunk (Dec.rgb s.params r g b)

/-- RGBA: the pixel's channels are the bytes (R173). -/
def Dec.rgba (P : Params) (r g b a : Byte) (d : Dec) : Dec :=
  (d.takePixel P { r := r, g := g, b := b, a := a }).endChunk

def execRgba (r g b a : Byte) (s : State) : Outcome := s.onChunk (Dec.rgba s.params r g b a)

end Sys2Proof.Machine
end

