-- ==== Sys2Proof/Machine/Lookup.lean ====
section
/-! DEFINITION. The chunks that name a pixel seen before, RUN and INDEX, on decode (42_decoder.md R174, R175). -/

namespace Sys2Proof.Machine

/-- How many pixels a RUN of `n` outputs: `min(n, D.LEFT)` (R174). -/
def Dec.runPixels (d : Dec) (n : Nat) : Nat := min n d.left.toNat

/-- RUN: the previous pixel again, cut to the pixels left; H and PP are not written (R174). -/
def Dec.repeatPixel (n : Nat) (d : Dec) : Dec :=
  Dec.endChunk { d with
    output := d.output ++ List.replicate (d.runPixels n) d.pp
    left := d.left - BitVec.ofNat 64 (d.runPixels n) }

def execRun (n : Nat) (s : State) : Outcome := s.onChunk (Dec.repeatPixel n)

/-- INDEX: the slot's pixel, verbatim (R175). -/
def Dec.index (P : Params) (i : Fin 64) (d : Dec) : Dec :=
  (d.takePixel P (readSlot d.hist i)).endChunk

def execIndex (i : Fin 64) (s : State) : Outcome := s.onChunk (Dec.index s.params i)

end Sys2Proof.Machine
end

