-- ==== Sys2Proof/Machine/Fetch.lean ====
section
/-! DEFINITION. Reading one chunk's bytes from the decoder's input (42_decoder.md R170, 20_memory.md R77), and placing
a chunk where the next `DecChunk` reads it. -/

namespace Sys2Proof.Machine

/-- The tag, then the chunk's own further bytes, as many as the tag says (R77, R92, R170). -/
def Dec.fetch (d : Dec) : Read Instr :=
  d.inByte.bind fun t d => (d.inBytes (chunkLen t - 1)).bind fun bytes d =>
    match decode (t :: bytes) with
    | .ok (i, _) => .got i d
    | .error .truncated => .failed .truncated d

/-- The decoder with `bytes` placed in `src` at `D.INPOS`, in phase CHUNKS with at least one pixel left and the status
that phase has (BUSY and HDR, R44); everything else as it was. Log entry 8. -/
def Dec.withChunkBytes (d : Dec) (bytes : List Byte) : Dec :=
  let p := d.inpos.toNat
  { d with
    phase := .chunks
    status := statusHeaderAccepted statusStarted
    left := if d.left = 0 then 1 else d.left
    src := d.src.take p ++ List.replicate (p - d.src.length) 0 ++ bytes ++ d.src.drop (p + bytes.length) }

end Sys2Proof.Machine
end

