-- ==== Sys2Proof/Machine/Header.lean ====
section
/-! DEFINITION. The steps that open and close a job (40_header_trailer.md): EncStart, EncFinish's terminator is in
Encoder.lean, DecStart, DecHeader and DecTrailer; and the aborts (60_exceptions.md R220). -/

namespace Sys2Proof.Machine

/-- `EncStart` (R111). -/
def Enc.start (w h : BitVec 32) (ch cs : Byte) (e : Enc) : Enc :=
  let e := { e with
    width := w, height := h, channels := ch, colorspace := cs
    pp := .seed, hist := clearedHistory, run := 0
    left := pixelCount w h, outpos := 0, output := [], input := []
    status := statusStarted }
  let e := e.outBytes (headerBytes w h ch cs)
  { e with phase := if e.left = 0 then .finish else .pixels }

/-- `ENC_ABORT` (R220). -/
def Enc.abort (e : Enc) : Enc := { e with phase := .idle, status := 0 }

/-- `DecStart` (R116). -/
def Dec.start (src : List Byte) (d : Dec) : Dec :=
  { d with
    src := src, inpos := 0, output := []
    width := 0, height := 0, channels := 0, colorspace := 0
    left := 0, pp := .seed, hist := clearedHistory
    status := statusStarted, phase := .header }

/-- `DEC_ABORT` (R220). -/
def Dec.abort (d : Dec) : Dec := { d with phase := .idle, status := 0 }

/-- `DecHeader` (R117): the magic is compared after its four bytes are read; the header registers are written after all
14 bytes are read. -/
def Dec.header (d : Dec) : Dec :=
  Read.settle <|
    (d.inBytes 4).bind fun m d =>
      if m = magic then
        d.inBE32.bind fun w d => d.inBE32.bind fun h d =>
        d.inByte.bind fun ch d => d.inByte.bind fun cs d =>
          .got { d with
            width := w, height := h, channels := ch, colorspace := cs
            left := pixelCount w h
            status := statusHeaderAccepted d.status
            phase := if pixelCount w h = 0 then .trailer else .chunks } d
      else .failed .badMagic d

/-- `DecTrailer` (R121): all eight bytes are read, then compared. -/
def Dec.trailer (d : Dec) : Dec :=
  Read.settle <|
    (d.inBytes 8).bind fun t d =>
      .got { d with
        status := if t = terminator then statusEnd true .none d.status else statusEnd false .badTrailer d.status
        phase := .done } d

end Sys2Proof.Machine
end

