-- ==== Sys2Proof/Machine/HostPort.lean ====
section
/-! DEFINITION. The HOST's side of the block: its commands and reads (10_state.md R45, R46), hardware reset
(70_reset_and_hazards.md R240). -/

namespace Sys2Proof.Machine

/-! ## Reads -/

/-- What the HOST reads from an encoder register, zero-extended to 64 bits (R45). -/
def Enc.readReg (e : Enc) : EncReg → BitVec 64
  | .width => e.width.setWidth 64
  | .height => e.height.setWidth 64
  | .channels => e.channels.setWidth 64
  | .colorspace => e.colorspace.setWidth 64
  | .left => e.left
  | .outpos => e.outpos
  | .status => e.status.setWidth 64

/-- What the HOST reads from a decoder register, zero-extended to 64 bits (R45). -/
def Dec.readReg (d : Dec) : DecReg → BitVec 64
  | .width => d.width.setWidth 64
  | .height => d.height.setWidth 64
  | .channels => d.channels.setWidth 64
  | .colorspace => d.colorspace.setWidth 64
  | .left => d.left
  | .inpos => d.inpos
  | .status => d.status.setWidth 64

/-- What a HOST read returns, if the block has the engine. -/
def State.hostRead (s : State) : HostReg → Option (BitVec 64)
  | .enc k r => (s.encs[k]?).map fun e => e.readReg r
  | .dec k r => (s.decs[k]?).map fun d => d.readReg r

/-! ## Commands -/

/-- ENC_START is taken in IDLE or DONE only (R111, R221). -/
def encStartCmd (k : Nat) (w h : BitVec 32) (ch cs : Byte) (s : State) : Outcome :=
  match s.encs[k]? with
  | none => .refused .noSuchEngine
  | some e =>
    match e.phase with
    | .idle => s.putEnc k (e.start w h ch cs)
    | .done => s.putEnc k (e.start w h ch cs)
    | .pixels => .refused .startWhileBusy
    | .finish => .refused .startWhileBusy

/-- The HOST appends to the pixel input (R46). -/
def encPixelsCmd (k : Nat) (ps : List Pixel) (s : State) : Outcome :=
  match s.encs[k]? with
  | none => .refused .noSuchEngine
  | some e => .next (s.setEnc k { e with input := e.input ++ ps })

/-- ENC_ABORT is taken in every phase (R220). -/
def encAbortCmd (k : Nat) (s : State) : Outcome :=
  match s.encs[k]? with
  | none => .refused .noSuchEngine
  | some e => .next (s.setEnc k e.abort)

/-- DEC_START is taken in IDLE or DONE only (R116, R221); a stream of 2^64 bytes or more is outside the model (R39). -/
def decStartCmd (k : Nat) (src : List Byte) (s : State) : Outcome :=
  match s.decs[k]? with
  | none => .refused .noSuchEngine
  | some d =>
    match d.phase with
    | .idle => if src.length < 2 ^ 64 then .next (s.setDec k (d.start src)) else .refused .streamTooLong
    | .done => if src.length < 2 ^ 64 then .next (s.setDec k (d.start src)) else .refused .streamTooLong
    | .header => .refused .startWhileBusy
    | .chunks => .refused .startWhileBusy
    | .trailer => .refused .startWhileBusy

/-- DEC_ABORT is taken in every phase (R220). -/
def decAbortCmd (k : Nat) (s : State) : Outcome :=
  match s.decs[k]? with
  | none => .refused .noSuchEngine
  | some d => .next (s.setDec k d.abort)

/-- A read has no side effect (R45). Its value is `State.hostRead`. -/
def readCmd (r : HostReg) (s : State) : Outcome :=
  match s.hostRead r with
  | none => .refused .noSuchEngine
  | some _ => .next s

/-- A named command. -/
def hostCmd (c : HostCmd) (s : State) : Outcome :=
  match c with
  | .encStart k w h ch cs => encStartCmd k w h ch cs s
  | .encPixels k ps => encPixelsCmd k ps s
  | .encAbort k => encAbortCmd k s
  | .decStart k src => decStartCmd k src s
  | .decAbort k => decAbortCmd k s
  | .read r => readCmd r s

/-- A bus access carries the command that `BUS_BINDING` gives it (R11, R45). -/
def busAccess (addr : Nat) (data : List Byte) (s : State) : Outcome :=
  match Config.busBinding addr data with
  | none => .refused .unboundBusAccess
  | some c => hostCmd c s

/-! ## Hardware reset -/

/-- Hardware reset, in any phase: every engine as R50 and R51 say, the unspecified values free (R240). The parameters
and the number of engines are the block's own and stay. -/
def State.hardReset (s : State) : State :=
  { s with
    encs := s.encs.mapIdx fun k _ =>
      Enc.afterReset (Config.freeEncPP s.resets k) (Vector.ofFn (Config.freeEncSlot s.resets k))
        (Config.freeEncRun s.resets k)
    decs := s.decs.mapIdx fun k _ =>
      Dec.afterReset (Config.freeDecPP s.resets k) (Vector.ofFn (Config.freeDecSlot s.resets k))
    resets := s.resets + 1 }

end Sys2Proof.Machine
end

