-- ==== Sys2Proof/Machine/Encoder.lean ====
section
/-! DEFINITION. The chunk encoder (41_encoder.md): one `EncPixel` step consumes one pixel and emits its chunks; and
`EncFinish` (40_header_trailer.md R113). -/

namespace Sys2Proof.Machine

/-- A RUN chunk for the run counter: stored value `E.RUN - 2`, a run of `E.RUN - 1` pixels (R88, R134). -/
def Enc.pendingRun (e : Enc) : Instr := .run (e.run.toNat - 1)

/-- Emit the pending run, if there is one (R134, and R113's final flush). -/
def Enc.flushRun (e : Enc) : Enc :=
  if 2 ≤ e.run then { e.emit e.pendingRun with run := 0 } else e

/-- Run continuation and the cap of 64: 62 of 63 pending repetitions go out, one stays (R132). A first pixel equal to
SEED takes this path too, so a job's first chunk may be a RUN, as R132 says and R96 denies (log entry 23). -/
def Enc.continueRun (e : Enc) : Enc :=
  let e := { e with run := if e.run = 0 then 2 else e.run + 1 }
  if e.run = 64 then { e.emit (.run 62) with run := 2 } else e

/-- DIFF may be used: alpha unchanged and the three differences in [-2, 1] (R136). -/
def fitsDiff (p pp : Pixel) (d : Deltas) : Bool :=
  decide (p.a = pp.a) && inRange (-2) 1 d.dr && inRange (-2) 1 d.dg && inRange (-2) 1 d.db

/-- LUMA may be used: alpha unchanged, `dg` in [-32, 31], `dr_dg` and `db_dg` in [-8, 7] (R137). -/
def fitsLuma (p pp : Pixel) (d : Deltas) : Bool :=
  decide (p.a = pp.a) && inRange (-32) 31 d.dg && inRange (-8) 7 d.drDg && inRange (-8) 7 d.dbDg

/-- The chunk for a pixel that differs from the previous one, in the fixed priority INDEX, DIFF, LUMA, RGBA, RGB (R130
steps 3 to 6, R135 to R139). -/
def selectChunk (P : Params) (hist : History) (pp p : Pixel) : Instr :=
  let d := deltas P.deltaArith p pp
  if readSlot hist (pHash P p) = p then .index (pHash P p)
  else if fitsDiff p pp d then .diff d.dr d.dg d.db
  else if fitsLuma p pp d then .luma d.dg d.drDg d.dbDg
  else if p.a ≠ pp.a then .rgba p.r p.g p.b p.a
  else .rgb p.r p.g p.b

/-- The other branch of R130: flush the run, emit the chunk, then write the slot and the previous pixel (R134, R140). -/
def Enc.newPixel (P : Params) (p : Pixel) (e : Enc) : Enc :=
  let e := e.flushRun
  let e := e.emit (selectChunk P e.hist e.pp p)
  { e with hist := writeSlot e.hist (pHash P p) p, pp := p }

/-- `E.LEFT <- E.LEFT - 1; if E.LEFT == 0: E.PHASE <- FINISH` (R141). -/
def Enc.countPixel (e : Enc) : Enc :=
  { e with left := e.left - 1, phase := if e.left - 1 = 0 then .finish else e.phase }

/-- `EncPixel` on the pixel `q` taken from the input (R130). A pixel equal to the previous one takes the run path and no
other, so DIFF 0, 0, 0 is never emitted, as R136 and R142 say and R101 denies (log entry 24). -/
def Enc.pixel (P : Params) (q : Pixel) (e : Enc) : Enc :=
  let p := formPixel e.channels q
  Enc.countPixel (if p = e.pp then e.continueRun else e.newPixel P p)

/-- `EncFinish`: the final run flush, the terminator, and success (R113). -/
def Enc.finish (e : Enc) : Enc :=
  let e := e.flushRun
  let e := e.outBytes terminator
  { e with status := statusEncDone, phase := .done }

/-- An encoder's own step, by its phase (R24): `EncPixel` in PIXELS when a pixel is there, `EncFinish` in FINISH; none
while it waits for a command or a pixel (R46, R222). -/
def tickEnc (k : Nat) (s : State) : Outcome :=
  match s.encs[k]? with
  | none => .refused .noSuchEngine
  | some e =>
    match e.phase, e.input with
    | .idle, _ => .next s
    | .done, _ => .next s
    | .pixels, [] => .next s
    | .pixels, q :: qs => s.putEnc k (Enc.pixel s.params q { e with input := qs })
    | .finish, _ => s.putEnc k e.finish

/-- The encoder has an enabled step (R24). -/
def Enc.ready (e : Enc) : Bool :=
  match e.phase, e.input with
  | .pixels, _ :: _ => true
  | .finish, _ => true
  | .pixels, [] => false
  | .idle, _ => false
  | .done, _ => false

end Sys2Proof.Machine
end

