-- ==== Sys2Proof/Machine/Schedule.lean ====
section
/-! DEFINITION. Which engine moves when the agenda is empty (70_reset_and_hazards.md R251, 60_exceptions.md R226). -/

namespace Sys2Proof.Machine

/-- The decoder has an enabled step (R33). -/
def Dec.ready (d : Dec) : Bool :=
  match d.phase with
  | .header => true
  | .chunks => true
  | .trailer => true
  | .idle => false
  | .done => false

/-- The engine that moves when nothing else is written down: the first decoder with an enabled step, else the first
such encoder. Since engines share nothing, the order has no effect on any engine (R226); since every job's steps end,
each of them gets its turn (R251). Log entry 2. -/
def State.nextReady (s : State) : Option EngineId :=
  match s.decs.findIdx? Dec.ready with
  | some k => some (.dec k)
  | none =>
    match s.encs.findIdx? Enc.ready with
    | some k => some (.enc k)
    | none => none

end Sys2Proof.Machine
end

