-- ==== Sys2Proof/Machine/Step.lean ====
section
/-! DEFINITION. One step of the block: the next move of the agenda, or, when nothing is written down, the step of an
engine that has one (10_state.md R24, R33). -/

namespace Sys2Proof.Machine

/-- `DecChunk`: read the chunk's bytes, then run it; or end the job TRUNCATED (R170, R214). -/
def decChunk (k : Nat) (d : Dec) (s : State) : Outcome :=
  match d.fetch with
  | .got i d' => exec i { s.setDec k d' with sel := k }
  | .failed code d' => .next (s.setDec k (d'.fail code))

/-- A decoder's own step, by its phase (R33); none while it waits for a command (R222). -/
def tickDec (k : Nat) (s : State) : Outcome :=
  match s.decs[k]? with
  | none => .refused .noSuchEngine
  | some d =>
    match d.phase with
    | .idle => .next s
    | .header => .next (s.setDec k d.header)
    | .chunks => decChunk k d s
    | .trailer => .next (s.setDec k d.trailer)
    | .done => .next s

/-- An engine's turn. -/
def tick (e : EngineId) (s : State) : Outcome :=
  match e with
  | .enc k => tickEnc k s
  | .dec k => tickDec k s

/-- One move. -/
def runMove (m : Move) (s : State) : Outcome :=
  match m with
  | .cmd c => hostCmd c s
  | .bus addr data => busAccess addr data s
  | .tick e => tick e s
  | .hardReset => .next s.hardReset

/-- One step of the block. With nothing written down and no engine that has an enabled step, the block waits: "after
reset an engine does nothing until the HOST issues a start command" (R241, R222). -/
def step (s : State) : Host.Outcome State Fault Refusal :=
  match s.agenda with
  | m :: rest => runMove m { s with agenda := rest }
  | [] =>
    match s.nextReady with
    | some e => tick e s
    | none => .next s

/-- `s` with the chunk whose bits are `w` (numbered as the opcode table numbers them) placed where the next `DecChunk`
of decoder 0 reads it, and that decoder's turn written first on the agenda. Log entry 8. -/
def State.withFetchWord (s : State) (nbits w : Nat) : State :=
  { s with
    decs := match s.decs with
      | [] => [(Dec.afterReset .zero clearedHistory).withChunkBytes (tableBytes nbits w)]
      | d :: ds => d.withChunkBytes (tableBytes nbits w) :: ds
    agenda := .tick (.dec 0) :: s.agenda }

end Sys2Proof.Machine
end

