-- ==== Sys2Proof/Machine/Listing.lean ====
section
/-! DEFINITION. Listings of chunk streams (30_encoding.md R99, R100): the records, their bytes, the assembler and the
disassembler. Their text is in ListingText.lean. -/

namespace Sys2Proof.Machine

/-- A record of a listing; `raw` is what a disassembler prints for bytes that are no record (R99, R100). -/
inductive Record where
  | header (w h : BitVec 32) (ch cs : Byte)
  | chunk (i : Instr)
  | terminator
  | raw (bytes : List Byte)
  deriving DecidableEq, Repr

/-- The bytes a record spells; an operand outside its range spells none (R99). -/
def Record.bytes : Record → Option (List Byte)
  | .header w h ch cs => some (headerBytes w h ch cs)
  | .chunk i => if wellFormed i then some (encode i) else none
  | .terminator => some Sys2Proof.terminator
  | .raw _ => none

/-- The assembler: the records' bytes in order, or nothing when one of them is refused (R99). It takes the records in
whatever order the listing has them, where R99 is silent (DESIGN CHOICE, log entry 10). -/
def assemble : List Record → Option (List Byte)
  | [] => some []
  | r :: rs =>
    match r.bytes, assemble rs with
    | some bs, some rest => some (bs ++ rest)
    | _, _ => none

/-- How many pixels a chunk stands for when `left` are left: a RUN counts as `min(n, pixels left)` (R100). -/
def Instr.pixels (left : Nat) : Instr → Nat
  | .rgb _ _ _ => 1
  | .rgba _ _ _ _ => 1
  | .run n => min n left
  | .index _ => 1
  | .diff _ _ _ => 1
  | .luma _ _ _ => 1

/-- Chunks until no pixel is left, and the bytes after them (R100). When the bytes end first, it stops at the chunk that
is cut short and leaves that chunk's bytes, where R100 is silent (DESIGN CHOICE, log entry 10). `fuel` bounds the chunks;
the number of bytes is enough. -/
def disassembleChunks (fuel left : Nat) (bytes : List Byte) : List Record × List Byte :=
  match fuel with
  | 0 => ([], bytes)
  | fuel + 1 =>
    if left = 0 then ([], bytes)
    else
      match decode bytes with
      | .error .truncated => ([], bytes)
      | .ok (i, rest) =>
        let more := disassembleChunks fuel (left - Instr.pixels left i) rest
        (.chunk i :: more.1, more.2)

/-- The next 8 bytes: END if they are the terminator, raw bytes otherwise (R100). When fewer than 8 are there, those, as
raw bytes, where R100 is silent (DESIGN CHOICE, log entry 10). -/
def disassembleEnd (bytes : List Byte) : Record :=
  if bytes.take 8 = Sys2Proof.terminator then .terminator else .raw (bytes.take 8)

/-- The disassembler (R100). For bytes that do not begin with a whole header with the magic it prints nothing, and it
prints nothing of the bytes after the terminator's eight, where R100 is silent (DESIGN CHOICE, log entry 10). -/
def disassemble : List Byte → Option (List Record)
  | m0 :: m1 :: m2 :: m3 :: w0 :: w1 :: w2 :: w3 :: h0 :: h1 :: h2 :: h3 :: ch :: cs :: rest =>
    if [m0, m1, m2, m3] = magic then
      let w := be32 w0 w1 w2 w3
      let h := be32 h0 h1 h2 h3
      let body := disassembleChunks rest.length (w.toNat * h.toNat) rest
      some (.header w h ch cs :: body.1 ++ [disassembleEnd body.2])
    else none
  | _ => none

end Sys2Proof.Machine
end

