-- ==== Sys2Proof/Safety.lean ====
section
/-! DEFINITION. The terms claims are stated in: what a safe outcome is, engines driven alone, what an engine's state
meets at every step boundary (10_state.md section 6), and what it means for a decoder to hold a stream. -/

namespace Sys2Proof.Machine

/-! ## Outcomes -/

/-- The step goes on: neither a fault nor a refusal. -/
def Safe (o : Outcome) : Prop := ∃ t, o = .next t

/-- Engine `e` takes its turn `n` times, and nothing else happens. -/
def ticks (e : EngineId) : Nat → State → Outcome
  | 0, s => .next s
  | n + 1, s =>
    match tick e s with
    | .next t => ticks e n t
    | .fault r => .fault r
    | .refused r => .refused r

/-- `n` steps of the block. -/
def steps : Nat → State → Outcome
  | 0, s => .next s
  | n + 1, s =>
    match step s with
    | .next t => steps n t
    | .fault r => .fault r
    | .refused r => .refused r

/-- The bytes of `src` that the decoder has not read (R38). -/
def Dec.unread (d : Dec) : List Byte := d.src.drop d.inpos.toNat

/-- The two states are the same but for what the MODEL keeps for itself (agenda, sel, resets). -/
def SameBlock (s t : State) : Prop := s.params = t.params ∧ s.encs = t.encs ∧ s.decs = t.decs

/-! ## Invariants of an encoder engine -/

/-- The status register that each phase of the encoder goes with (R42, R44, R111, R113, R216, R220). -/
def encStatusOf : EncPhase → Byte
  | .idle => 0x00
  | .pixels => 0x01
  | .finish => 0x01
  | .done => 0x06

/-- What holds of an encoder engine at every step boundary. -/
structure EncInv (e : Enc) : Prop where
  /-- STATUS follows PHASE; ERR, HDR and bit 7 read 0 (R42, R43, R216). -/
  status_phase : e.status = encStatusOf e.phase
  /-- Outside IDLE the run counter is 0 or 2..63 (R29, R53); in IDLE an abort has kept it (R220; log entry 7). -/
  run_range : e.phase ≠ .idle → e.run = 0 ∨ (2 ≤ e.run ∧ e.run ≤ 63)
  /-- No run is pending once the job is done (R53, R113). -/
  run_done : e.phase = .done → e.run = 0
  /-- "In PIXELS `E.LEFT ≥ 1` always" (R130). -/
  left_pixels : e.phase = .pixels → e.left ≠ 0
  /-- All pixels are consumed in FINISH and DONE (R23, R141). -/
  left_after : e.phase = .finish ∨ e.phase = .done → e.left = 0
  /-- OUTPOS is the number of bytes emitted (R31). -/
  outpos_length : e.outpos.toNat = e.output.length
  /-- In a job whose channels byte is not 4, alpha stays SEED's 255 (R131). -/
  alpha_opaque : e.phase ≠ .idle → e.channels ≠ 4 → e.pp.a = 255

/-- How many pixels of the job the encoder has consumed. -/
def Enc.consumed (e : Enc) : Nat := (pixelCount e.width e.height).toNat - e.left.toNat

/-- The bound on the bytes of a job: 14, then at most 5 for each pixel consumed, one of which a pending run still owes,
then 8 (R31, R97). -/
structure EncBound (e : Enc) : Prop where
  left_le : e.phase ≠ .idle → e.left.toNat ≤ (pixelCount e.width e.height).toNat
  pending_le : e.phase = .pixels ∨ e.phase = .finish →
    e.output.length + (if e.run = 0 then 0 else 1) ≤ 14 + 5 * e.consumed
  done_le : e.phase = .done → e.output.length ≤ 14 + 5 * (pixelCount e.width e.height).toNat + 8

/-! ## Invariants of a decoder engine -/

/-- The status registers that each phase of the decoder goes with (R42 to R44, R116, R117, R121, R211 to R215): at
DONE, success, BAD_TRAILER, TRUNCATED after or before the header was accepted, or BAD_MAGIC. -/
def decStatusesOf : DecPhase → List Byte
  | .idle => [0x00]
  | .header => [0x01]
  | .chunks => [0x41]
  | .trailer => [0x41]
  | .done => [0x46, 0x5A, 0x62, 0x22, 0x0A]

/-- What holds of a decoder engine at every step boundary. -/
structure DecInv (d : Dec) : Prop where
  /-- STATUS follows PHASE; in particular ERR is never 2 and never reserved, and bit 7 reads 0 (R42, R43, R213). -/
  status_phase : d.status ∈ decStatusesOf d.phase
  /-- "In CHUNKS `D.LEFT ≥ 1` always" (R170). -/
  left_chunks : d.phase = .chunks → d.left ≠ 0
  /-- No pixel is left in TRAILER (R180). -/
  left_trailer : d.phase = .trailer → d.left = 0
  /-- The position never passes the end of `src`, which is shorter than 2^64 bytes (R38, R39). -/
  inpos_le : d.inpos.toNat ≤ d.src.length
  src_lt : d.src.length < 2 ^ 64
  /-- Every pixel of the header's count is output or left (R37, R178). -/
  pixels_count : d.phase = .chunks ∨ d.phase = .trailer →
    d.output.length + d.left.toNat = (pixelCount d.width d.height).toNat
  /-- Until a header is accepted the header registers are 0 and no pixel is output (R34, R118, R212). -/
  no_header : d.phase ≠ .idle → statusHdr d.status = false →
    d.width = 0 ∧ d.height = 0 ∧ d.channels = 0 ∧ d.colorspace = 0 ∧ d.output = []
  /-- Success means that every pixel of the header's count is output (R121, R180). -/
  ok_complete : statusOk d.status = true → d.output.length = (pixelCount d.width d.height).toNat

/-! ## Invariants of the block -/

/-- Every slot of a job's cache is ZERO or holds a pixel whose hash is the slot's number (R55). -/
def CacheInv (P : Params) (h : History) : Prop := ∀ i, readSlot h i = .zero ∨ pHash P (readSlot h i) = i

/-- R55 for every engine that has a job. -/
def CachesInv (s : State) : Prop :=
  (∀ e ∈ s.encs, e.phase ≠ .idle → CacheInv s.params e.hist) ∧
  (∀ d ∈ s.decs, d.phase ≠ .idle → CacheInv s.params d.hist)

/-! ## Jobs -/

/-- The engine has no job running: a start command is taken (R24, R33, R221). -/
def Enc.free (e : Enc) : Prop := e.phase = .idle ∨ e.phase = .done

/-- The engine has no job running (R33, R221). -/
def Dec.free (d : Dec) : Prop := d.phase = .idle ∨ d.phase = .done

/-- The HOST's encode of R244: start, the pixels, then the engine's own steps, one a pixel and one to finish. -/
def encodeAgenda (k : Nat) (w h : BitVec 32) (ch cs : Byte) (ps : List Pixel) : List Move :=
  .cmd (.encStart k w h ch cs) :: .cmd (.encPixels k ps) :: List.replicate (ps.length + 1) (.tick (.enc k))

/-- The HOST's decode of R244: start, then the engine's own steps, `n` of them. -/
def decodeAgenda (k : Nat) (src : List Byte) (n : Nat) : List Move :=
  .cmd (.decStart k src) :: List.replicate n (.tick (.dec k))

/-- How many pixels a chunk asks for, before any cut to the pixels left (R39, R99). -/
def chunkCount : Instr → Nat
  | .rgb _ _ _ => 1
  | .rgba _ _ _ _ => 1
  | .run n => n
  | .index _ => 1
  | .diff _ _ _ => 1
  | .luma _ _ _ => 1

/-- Not a RUN chunk: the chunks that give one pixel and end in the common post-processing (R178). -/
def isPixelChunk : Instr → Bool
  | .rgb _ _ _ => true
  | .rgba _ _ _ _ => true
  | .run _ => false
  | .index _ => true
  | .diff _ _ _ => true
  | .luma _ _ _ => true

end Sys2Proof.Machine
end

