-- ==== Sys2Proof/Certificates/Slice0/Obligations.lean ====
section
/-! DEFINITION. The statements about the model. -/

open Sys2Proof Sys2Proof.Machine

/-! ## The wire format of the chunks -/

/-- R84's table: each kind's tag bytes, and the chunk length that goes with it (R92); so 0xFE and 0xFF are never RUN
chunks (R171), and every byte has a kind (R95). -/
def Obligations.TagByteGivesKindAndLength : Prop :=
  ∀ t : Byte,
    (t = 0xFE → kind t = .rgb ∧ chunkLen t = 4) ∧
    (t = 0xFF → kind t = .rgba ∧ chunkLen t = 5) ∧
    (t ≤ 0x3F → kind t = .index ∧ chunkLen t = 1) ∧
    (0x40 ≤ t ∧ t ≤ 0x7F → kind t = .diff ∧ chunkLen t = 1) ∧
    (0x80 ≤ t ∧ t ≤ 0xBF → kind t = .luma ∧ chunkLen t = 2) ∧
    (0xC0 ≤ t ∧ t ≤ 0xFD → kind t = .run ∧ chunkLen t = 1)

/-- Words written out from the encodings of R85 to R90 decode to the chunks they stand for (95_test_vectors.md P1, V32,
V33, E7). The layout of DIFF is the spec's own choice (log entry 11). -/
def Obligations.WrittenOutWordsDecode : Prop :=
  decodeTableWord 32 0x1E140AFE = some (.rgb 10 20 30) ∧
  decodeTableWord 40 0x801E140AFF = some (.rgba 10 20 30 128) ∧
  decodeTableWord 8 0xC1 = some (.run 2) ∧
  decodeTableWord 8 0xFD = some (.run 62) ∧
  decodeTableWord 8 0x09 = some (.index 9) ∧
  decodeTableWord 8 0x76 = some (.diff 1 (-1) 0) ∧
  decodeTableWord 16 0x62AB = some (.luma 11 (-2) (-6)) ∧
  decodeTableWord 16 0x0080 = some (.luma (-32) (-8) (-8)) ∧
  decodeTableWord 16 0xFFBF = some (.luma 31 7 7)

/-- Decoding the bytes of any well-formed chunk gives the chunk back, and the bytes after it (R85 to R93). -/
def Obligations.DecodeOfEncode : Prop :=
  ∀ (i : Instr) (rest : List Byte), wellFormed i = true → decode (encode i ++ rest) = .ok (i, rest)

/-- Whatever bytes decode to a chunk are that chunk's bytes, and the chunk is well-formed: no bit of a chunk is dropped,
and every chunk has one spelling (R85 to R93). -/
def Obligations.EncodeOfDecode : Prop :=
  ∀ (bytes rest : List Byte) (i : Instr),
    decode bytes = .ok (i, rest) → wellFormed i = true ∧ bytes = encode i ++ rest

/-- The decoder answers a chunk as soon as it has the `Len(t)` bytes that the tag asks for, whatever their values, and
looks at no byte after them; with fewer it answers that the bytes end too early (R77, R92, R95). -/
def Obligations.DecodeNeedsExactlyTheChunksBytes : Prop :=
  ∀ (t : Byte) (more : List Byte),
    (chunkLen t ≤ more.length + 1 →
      ∃ i, Instr.length i = chunkLen t ∧ ∀ after : List Byte,
        decode (t :: more.take (chunkLen t - 1) ++ after) = .ok (i, after)) ∧
    (more.length + 1 < chunkLen t → decode (t :: more) = .error .truncated)

/-- The assembler and the disassembler agree: a listing of a header, well-formed chunks that ask for exactly the
header's pixels, and END, assembles, and its bytes disassemble to the same listing (R99, R100). -/
def Obligations.DisassembleOfAssemble : Prop :=
  ∀ (w h : BitVec 32) (ch cs : Byte) (is : List Instr),
    (∀ i ∈ is, wellFormed i = true) →
    (is.map chunkCount).sum = w.toNat * h.toNat →
    ∃ bytes,
      assemble (.header w h ch cs :: is.map Record.chunk ++ [.terminator]) = some bytes ∧
      disassemble bytes = some (.header w h ch cs :: is.map Record.chunk ++ [.terminator])

/-! ## What each chunk does on decode -/

/-- RGB (R172, with R170 and R178): tag 0xFE and three raw bytes are the chunk; run, the pixel of the three bytes and
the previous alpha is output, written at its slot and made the previous pixel; one pixel less is left, and the phase is
TRAILER when none is (R180). -/
def Obligations.RgbResult : Prop :=
  ∀ r g b : Byte,
    (∀ rest, decode (0xFE :: r :: g :: b :: rest) = .ok (.rgb r g b, rest)) ∧
    ∀ (s : State) (d : Dec), s.decs[s.sel]? = some d → d.phase = .chunks →
      exec (.rgb r g b) s = .next (s.setDec s.sel { d with
        output := d.output ++ [{ r := r, g := g, b := b, a := d.pp.a }]
        hist := writeSlot d.hist (pHash s.params { r := r, g := g, b := b, a := d.pp.a })
          { r := r, g := g, b := b, a := d.pp.a }
        pp := { r := r, g := g, b := b, a := d.pp.a }
        left := d.left - 1
        phase := if d.left = 1 then .trailer else .chunks })

/-- RGBA (R173, with R170 and R178): as RGB, with tag 0xFF and the fourth byte for alpha. -/
def Obligations.RgbaResult : Prop :=
  ∀ r g b a : Byte,
    (∀ rest, decode (0xFF :: r :: g :: b :: a :: rest) = .ok (.rgba r g b a, rest)) ∧
    ∀ (s : State) (d : Dec), s.decs[s.sel]? = some d → d.phase = .chunks →
      exec (.rgba r g b a) s = .next (s.setDec s.sel { d with
        output := d.output ++ [{ r := r, g := g, b := b, a := a }]
        hist := writeSlot d.hist (pHash s.params { r := r, g := g, b := b, a := a }) { r := r, g := g, b := b, a := a }
        pp := { r := r, g := g, b := b, a := a }
        left := d.left - 1
        phase := if d.left = 1 then .trailer else .chunks })

/-- RUN (R174, with R170): the tag `0xC0 | s` is a run of `s + 1`; run, the previous pixel is output
`min(n, D.LEFT)` times and D.LEFT goes down by as much; H and PP are not written. For an `n` outside 1..62, which no
encoding gives, the effect is the model's choice (log entry 22). -/
def Obligations.RunResult : Prop :=
  (∀ (v : Nat) (rest : List Byte), v ≤ 61 →
    decode (((0xC0 : Byte) ||| BitVec.ofNat 8 v) :: rest) = .ok (.run (v + 1), rest)) ∧
  ∀ (s : State) (d : Dec) (n : Nat), s.decs[s.sel]? = some d → d.phase = .chunks →
    exec (.run n) s = .next (s.setDec s.sel { d with
      output := d.output ++ List.replicate (min n d.left.toNat) d.pp
      left := BitVec.ofNat 64 (d.left.toNat - n)
      phase := if d.left.toNat ≤ n then .trailer else .chunks })

/-- INDEX (R175, with R170 and R178): the tag is the slot's number; run, the slot's pixel, verbatim, is output, written
at the slot of its own hash and made the previous pixel. -/
def Obligations.IndexResult : Prop :=
  ∀ i : Fin 64,
    (∀ rest, decode (BitVec.ofNat 8 i :: rest) = .ok (.index i, rest)) ∧
    ∀ (s : State) (d : Dec), s.decs[s.sel]? = some d → d.phase = .chunks →
      exec (.index i) s = .next (s.setDec s.sel { d with
        output := d.output ++ [readSlot d.hist i]
        hist := writeSlot d.hist (pHash s.params (readSlot d.hist i)) (readSlot d.hist i)
        pp := readSlot d.hist i
        left := d.left - 1
        phase := if d.left = 1 then .trailer else .chunks })

/-- DIFF (R176, with R170 and R178): the tag `0x40 | (fr << 4) | (fg << 2) | fb` is the differences `field - 2`; run,
each of r, g, b is the previous channel plus its difference, modulo 256; alpha is the previous alpha. Which bit pair
holds which channel is the spec's own choice, from general knowledge (log entry 11). For differences outside -2..1,
which no encoding gives, the effect is the model's choice (log entry 22). -/
def Obligations.DiffResult : Prop :=
  (∀ (fr fg fb : Fin 4) (rest : List Byte),
    decode (((0x40 : Byte) ||| (BitVec.ofNat 8 fr <<< 4) ||| (BitVec.ofNat 8 fg <<< 2) ||| BitVec.ofNat 8 fb) :: rest) =
      .ok (.diff ((fr : Nat) - 2) ((fg : Nat) - 2) ((fb : Nat) - 2), rest)) ∧
  ∀ (s : State) (d : Dec) (dr dg db : Int), s.decs[s.sel]? = some d → d.phase = .chunks →
    ∃ px : Pixel,
      (px.r.toNat : Int) = (d.pp.r.toNat + dr) % 256 ∧
      (px.g.toNat : Int) = (d.pp.g.toNat + dg) % 256 ∧
      (px.b.toNat : Int) = (d.pp.b.toNat + db) % 256 ∧
      px.a = d.pp.a ∧
      exec (.diff dr dg db) s = .next (s.setDec s.sel { d with
        output := d.output ++ [px], hist := writeSlot d.hist (pHash s.params px) px, pp := px
        left := d.left - 1
        phase := if d.left = 1 then .trailer else .chunks })

/-- LUMA (R177, with R170 and R178): the tag `0x80 | fg6` and the byte `u` are `dg = fg6 - 32`, `dr_dg = u[7:4] - 8`,
`db_dg = u[3:0] - 8`; run, g moves by `dg`, r by `dr_dg + dg`, b by `db_dg + dg`, each modulo 256; alpha is the previous
alpha. For operands outside these fields' ranges, which no encoding gives, the effect is the model's choice (log
entry 22). -/
def Obligations.LumaResult : Prop :=
  (∀ (fg6 : Fin 64) (u : Byte) (rest : List Byte),
    decode (((0x80 : Byte) ||| BitVec.ofNat 8 fg6) :: u :: rest) =
      .ok (.luma ((fg6 : Nat) - 32) ((u.toNat / 16 : Nat) - 8) ((u.toNat % 16 : Nat) - 8), rest)) ∧
  ∀ (s : State) (d : Dec) (dg drDg dbDg : Int), s.decs[s.sel]? = some d → d.phase = .chunks →
    ∃ px : Pixel,
      (px.r.toNat : Int) = (d.pp.r.toNat + drDg + dg) % 256 ∧
      (px.g.toNat : Int) = (d.pp.g.toNat + dg) % 256 ∧
      (px.b.toNat : Int) = (d.pp.b.toNat + dbDg + dg) % 256 ∧
      px.a = d.pp.a ∧
      exec (.luma dg drDg dbDg) s = .next (s.setDec s.sel { d with
        output := d.output ++ [px], hist := writeSlot d.hist (pHash s.params px) px, pp := px
        left := d.left - 1
        phase := if d.left = 1 then .trailer else .chunks })

/-- The frame of RGB, RGBA, INDEX, DIFF and LUMA: in a next state only the selected decoder has changed, and of it only
the previous pixel, the slot of that pixel's hash, one more pixel of output, D.LEFT and the phase. No byte of any `src`
or of any encoder's output changes, and no status register (R170, R178). For operands that no encoding gives this is the
model's choice (log entry 22). -/
def Obligations.PixelChunkFrame : Prop :=
  ∀ (i : Instr) (s t : State), isPixelChunk i = true → exec i s = .next t →
    t.params = s.params ∧ t.encs = s.encs ∧ t.agenda = s.agenda ∧ t.sel = s.sel ∧ t.resets = s.resets ∧
    t.decs.length = s.decs.length ∧
    (∀ j, j ≠ s.sel → t.decs[j]? = s.decs[j]?) ∧
    ∃ d d', s.decs[s.sel]? = some d ∧ t.decs[s.sel]? = some d' ∧
      d'.width = d.width ∧ d'.height = d.height ∧ d'.channels = d.channels ∧ d'.colorspace = d.colorspace ∧
      d'.status = d.status ∧ d'.inpos = d.inpos ∧ (∀ a, d'.srcByte a = d.srcByte a) ∧
      d'.output = d.output ++ [d'.pp] ∧
      (∀ slot, slot ≠ pHash s.params d'.pp → readSlot d'.hist slot = readSlot d.hist slot)

/-- The frame of RUN: as the frame of the other chunks, and the previous pixel and every slot are unchanged too (R174:
"without touching the history cache"). For an `n` that no encoding gives this is the model's choice (log entry 22). -/
def Obligations.RunFrame : Prop :=
  ∀ (n : Nat) (s t : State), exec (.run n) s = .next t →
    t.params = s.params ∧ t.encs = s.encs ∧ t.agenda = s.agenda ∧ t.sel = s.sel ∧ t.resets = s.resets ∧
    t.decs.length = s.decs.length ∧
    (∀ j, j ≠ s.sel → t.decs[j]? = s.decs[j]?) ∧
    ∃ d d', s.decs[s.sel]? = some d ∧ t.decs[s.sel]? = some d' ∧
      d'.width = d.width ∧ d'.height = d.height ∧ d'.channels = d.channels ∧ d'.colorspace = d.colorspace ∧
      d'.status = d.status ∧ d'.inpos = d.inpos ∧ (∀ a, d'.srcByte a = d.srcByte a) ∧
      d'.pp = d.pp ∧ (∀ slot, readSlot d'.hist slot = readSlot d.hist slot) ∧
      ∃ k, d'.output = d.output ++ List.replicate k d.pp

/-- A chunk asked of a decoder that is not in CHUNKS is refused, where `DecChunk` is not enabled (R170 gives the enabling
condition; that the model answers with a refusal is its own choice, log entry 4). -/
def Obligations.ChunkOutsideChunksPhaseRefused : Prop :=
  ∀ (i : Instr) (s : State) (d : Dec),
    s.decs[s.sel]? = some d → d.phase ≠ .chunks → exec i s = .refused .chunkNotEnabled

/-! ## Steps of a decoder -/

/-- In CHUNKS, when the bytes at D.INPOS decode to a chunk, the decoder's step is `exec` of that chunk on that decoder,
with D.INPOS moved past the chunk's bytes; whether its turn is written first on the agenda or the agenda is empty and
the turn is its own. -/
def Obligations.StepRunsDecodedChunk : Prop :=
  ∀ (s : State) (k : Nat) (d : Dec) (i : Instr) (rest : List Byte),
    s.decs[k]? = some d → d.phase = .chunks → d.src.length < 2 ^ 64 → decode d.unread = .ok (i, rest) →
    (∀ more, s.agenda = .tick (.dec k) :: more →
      step s = exec i { s.setDec k { d with inpos := d.inpos + BitVec.ofNat 64 (Instr.length i) } with
        agenda := more, sel := k }) ∧
    (s.agenda = [] → s.nextReady = some (.dec k) →
      step s = exec i { s.setDec k { d with inpos := d.inpos + BitVec.ofNat 64 (Instr.length i) } with sel := k })

/-- What `step` adds around the moves: the first move of the agenda is taken and removed; a bus access is the command
that `BUS_BINDING` gives it; with an empty agenda the engine that has a step takes it. (The agenda is the model's own, log
entry 2.) -/
def Obligations.StepTakesTheFirstMove : Prop :=
  ∀ (s : State) (more : List Move),
    (∀ c, s.agenda = .cmd c :: more → step s = hostCmd c { s with agenda := more }) ∧
    (∀ e, s.agenda = .tick e :: more → step s = tick e { s with agenda := more }) ∧
    (∀ addr data c, Config.busBinding addr data = some c → s.agenda = .bus addr data :: more →
      step s = hostCmd c { s with agenda := more }) ∧
    (s.agenda = [] → ∀ e, s.nextReady = some e → step s = tick e s)

/-- A chunk cut short ends the job TRUNCATED: ERR = 4, D.INPOS at the end of `src`, HDR as it was, no pixel output, and
H, PP and LEFT not updated (R211, R214). -/
def Obligations.TruncatedChunkEndsJob : Prop :=
  ∀ (s : State) (k : Nat) (d : Dec),
    s.decs[k]? = some d → d.phase = .chunks → d.src.length < 2 ^ 64 → d.inpos.toNat ≤ d.src.length →
    decode d.unread = .error .truncated →
    ∃ st : Byte, statusBusy st = false ∧ statusDone st = true ∧ statusOk st = false ∧ statusErr st = 4 ∧
      statusHdr st = statusHdr d.status ∧
      tick (.dec k) s = .next (s.setDec k { d with
        inpos := BitVec.ofNat 64 d.src.length, status := st, phase := .done })

/-- DecHeader accepts a header whose magic matches: the four header registers, D.LEFT = w * h, HDR = 1, 14 bytes read,
and the phase CHUNKS, or TRAILER when the pixel count is 0; the field values are not checked (R117, R118). -/
def Obligations.HeaderAccepted : Prop :=
  ∀ (s : State) (k : Nat) (d : Dec) (w h : BitVec 32) (ch cs : Byte) (rest : List Byte),
    s.decs[k]? = some d → d.phase = .header → d.src.length < 2 ^ 64 →
    d.unread = [0x71, 0x6F, 0x69, 0x66] ++ be32Bytes w ++ be32Bytes h ++ [ch, cs] ++ rest →
    ∃ left : BitVec 64, left.toNat = w.toNat * h.toNat ∧
      tick (.dec k) s = .next (s.setDec k { d with
        width := w, height := h, channels := ch, colorspace := cs, left := left
        inpos := d.inpos + 14
        status := d.status ||| 0x40
        phase := if w.toNat * h.toNat = 0 then .trailer else .chunks })

/-- BAD_MAGIC: when the first four bytes are not "qoif" the job ends with ERR = 1 after exactly those four bytes, with
HDR, the header registers and the pixel output as they were (R211, R212). -/
def Obligations.BadMagicEndsJob : Prop :=
  ∀ (s : State) (k : Nat) (d : Dec),
    s.decs[k]? = some d → d.phase = .header → d.src.length < 2 ^ 64 → d.inpos.toNat + 4 ≤ d.src.length →
    d.unread.take 4 ≠ [0x71, 0x6F, 0x69, 0x66] →
    ∃ st : Byte, statusBusy st = false ∧ statusDone st = true ∧ statusOk st = false ∧ statusErr st = 1 ∧
      statusHdr st = statusHdr d.status ∧
      tick (.dec k) s = .next (s.setDec k { d with inpos := d.inpos + 4, status := st, phase := .done })

/-- A header cut short is TRUNCATED: with fewer than four bytes whatever they are, and after a matching magic with fewer
than fourteen; the header registers and HDR stay (R117, R214, R217). -/
def Obligations.TruncatedHeaderEndsJob : Prop :=
  ∀ (s : State) (k : Nat) (d : Dec),
    s.decs[k]? = some d → d.phase = .header → d.src.length < 2 ^ 64 → d.inpos.toNat ≤ d.src.length →
    (d.unread.length < 4 ∨ (d.unread.take 4 = [0x71, 0x6F, 0x69, 0x66] ∧ d.unread.length < 14)) →
    ∃ st : Byte, statusBusy st = false ∧ statusDone st = true ∧ statusOk st = false ∧ statusErr st = 4 ∧
      statusHdr st = statusHdr d.status ∧
      tick (.dec k) s = .next (s.setDec k { d with
        inpos := BitVec.ofNat 64 d.src.length, status := st, phase := .done })

/-- DecTrailer reads all eight bytes and ends the job: OK = 1 and ERR = 0 when they are the terminator, OK = 0 and
ERR = 3 otherwise; HDR, the pixel output and everything else stay (R121, R215). -/
def Obligations.TrailerChecked : Prop :=
  ∀ (s : State) (k : Nat) (d : Dec),
    s.decs[k]? = some d → d.phase = .trailer → d.src.length < 2 ^ 64 → d.inpos.toNat + 8 ≤ d.src.length →
    ∃ st : Byte, statusBusy st = false ∧ statusDone st = true ∧ statusHdr st = statusHdr d.status ∧
      (d.unread.take 8 = [0, 0, 0, 0, 0, 0, 0, 1] → statusOk st = true ∧ statusErr st = 0) ∧
      (d.unread.take 8 ≠ [0, 0, 0, 0, 0, 0, 0, 1] → statusOk st = false ∧ statusErr st = 3) ∧
      tick (.dec k) s = .next (s.setDec k { d with inpos := d.inpos + 8, status := st, phase := .done })

/-- A terminator cut short is TRUNCATED, even if a byte already read differs (R214, R217). -/
def Obligations.TruncatedTrailerEndsJob : Prop :=
  ∀ (s : State) (k : Nat) (d : Dec),
    s.decs[k]? = some d → d.phase = .trailer → d.src.length < 2 ^ 64 → d.inpos.toNat ≤ d.src.length →
    d.unread.length < 8 →
    ∃ st : Byte, statusBusy st = false ∧ statusDone st = true ∧ statusOk st = false ∧ statusErr st = 4 ∧
      statusHdr st = statusHdr d.status ∧
      tick (.dec k) s = .next (s.setDec k { d with
        inpos := BitVec.ofNat 64 d.src.length, status := st, phase := .done })

/-! ## Commands of the HOST -/

/-- DEC_START in IDLE or DONE leaves exactly the job-start values, whatever the engine held before (R116, R227). -/
def Obligations.DecStartResult : Prop :=
  ∀ (s : State) (k : Nat) (d : Dec) (src : List Byte),
    s.decs[k]? = some d → (d.phase = .idle ∨ d.phase = .done) → src.length < 2 ^ 64 →
    hostCmd (.decStart k src) s = .next (s.setDec k
      { phase := .header, width := 0, height := 0, channels := 0, colorspace := 0
        pp := { r := 0, g := 0, b := 0, a := 255 }
        hist := Vector.replicate 64 { r := 0, g := 0, b := 0, a := 0 }
        left := 0, inpos := 0, status := 0x01, src := src, output := [] })

/-- ENC_START in IDLE or DONE leaves exactly the job-start values, whatever the engine held before, and emits the 14
header bytes; the phase is PIXELS, or FINISH when the pixel count is 0 (R111, R227). -/
def Obligations.EncStartResult : Prop :=
  ∀ (s : State) (k : Nat) (e : Enc) (w h : BitVec 32) (ch cs : Byte),
    s.encs[k]? = some e → (e.phase = .idle ∨ e.phase = .done) →
    ∃ left : BitVec 64, left.toNat = w.toNat * h.toNat ∧
      hostCmd (.encStart k w h ch cs) s = .next (s.setEnc k
        { phase := if w.toNat * h.toNat = 0 then .finish else .pixels
          width := w, height := h, channels := ch, colorspace := cs
          pp := { r := 0, g := 0, b := 0, a := 255 }
          hist := Vector.replicate 64 { r := 0, g := 0, b := 0, a := 0 }
          run := 0, left := left, outpos := 14, status := 0x01
          output := [0x71, 0x6F, 0x69, 0x66,
            w.extractLsb' 24 8, w.extractLsb' 16 8, w.extractLsb' 8 8, w.extractLsb' 0 8,
            h.extractLsb' 24 8, h.extractLsb' 16 8, h.extractLsb' 8 8, h.extractLsb' 0 8, ch, cs]
          input := [] })

/-- A start command while the engine is BUSY is no move of the model (R221). -/
def Obligations.StartWhileBusyRefused : Prop :=
  (∀ (s : State) (k : Nat) (e : Enc) (w h : BitVec 32) (ch cs : Byte),
    s.encs[k]? = some e → (e.phase = .pixels ∨ e.phase = .finish) →
    hostCmd (.encStart k w h ch cs) s = .refused .startWhileBusy) ∧
  (∀ (s : State) (k : Nat) (d : Dec) (src : List Byte),
    s.decs[k]? = some d → (d.phase = .header ∨ d.phase = .chunks ∨ d.phase = .trailer) →
    hostCmd (.decStart k src) s = .refused .startWhileBusy)

/-- An abort is taken in every phase: phase IDLE, STATUS 0, and the rest of the engine as it was (R220). -/
def Obligations.AbortResult : Prop :=
  (∀ (s : State) (k : Nat) (e : Enc), s.encs[k]? = some e →
    hostCmd (.encAbort k) s = .next (s.setEnc k { e with phase := .idle, status := 0 })) ∧
  (∀ (s : State) (k : Nat) (d : Dec), s.decs[k]? = some d →
    hostCmd (.decAbort k) s = .next (s.setDec k { d with phase := .idle, status := 0 }))

/-- A read of a register of an engine that the block has returns the register's value and has no effect (R45). The width
of what a read returns is the model's choice: 64 bits, zero-extended (log entry 17). -/
def Obligations.HostReadsHaveNoEffect : Prop :=
  (∀ (s : State) (k : Nat) (e : Enc) (r : EncReg), s.encs[k]? = some e →
    hostCmd (.read (.enc k r)) s = .next s ∧
    ∃ v, s.hostRead (.enc k r) = some v ∧ v.toNat =
      match r with
      | .width => e.width.toNat | .height => e.height.toNat | .channels => e.channels.toNat
      | .colorspace => e.colorspace.toNat | .left => e.left.toNat | .outpos => e.outpos.toNat
      | .status => e.status.toNat) ∧
  (∀ (s : State) (k : Nat) (d : Dec) (r : DecReg), s.decs[k]? = some d →
    hostCmd (.read (.dec k r)) s = .next s ∧
    ∃ v, s.hostRead (.dec k r) = some v ∧ v.toNat =
      match r with
      | .width => d.width.toNat | .height => d.height.toNat | .channels => d.channels.toNat
      | .colorspace => d.colorspace.toNat | .left => d.left.toNat | .inpos => d.inpos.toNat
      | .status => d.status.toNat)

/-! ## Steps of an encoder -/

/-- `Form(q)` (R131). -/
def Obligations.FormedPixelAlpha : Prop :=
  ∀ (ch : Byte) (q : Pixel),
    (ch = 4 → formPixel ch q = q) ∧
    (ch ≠ 4 → formPixel ch q = { r := q.r, g := q.g, b := q.b, a := 255 })

/-- Run continuation and the cap (R132, R141): a pixel equal to the previous one only moves the run counter, 0 to 2 and
then up by one, and at 63 emits 0xFD and sets the counter to 2; H and PP are not written. -/
def Obligations.RunContinuation : Prop :=
  ∀ (s : State) (k : Nat) (e : Enc) (q : Pixel) (qs : List Pixel),
    s.encs[k]? = some e → e.phase = .pixels → e.input = q :: qs → formPixel e.channels q = e.pp →
    e.output.length + 1 < 2 ^ 64 →
    (e.run = 0 → tick (.enc k) s = .next (s.setEnc k { e with
      input := qs, run := 2, left := e.left - 1, phase := if e.left = 1 then .finish else .pixels })) ∧
    (2 ≤ e.run ∧ e.run ≤ 62 → tick (.enc k) s = .next (s.setEnc k { e with
      input := qs, run := e.run + 1, left := e.left - 1, phase := if e.left = 1 then .finish else .pixels })) ∧
    (e.run = 63 → tick (.enc k) s = .next (s.setEnc k { e with
      input := qs, run := 2, output := e.output ++ [0xFD], outpos := e.outpos + 1
      left := e.left - 1, phase := if e.left = 1 then .finish else .pixels }))

/-- A pixel that differs from the previous one (R130, R134, R140, R141): the pending run's byte `0xC0 | (E.RUN - 2)`
first, if a run is pending, then the selected chunk's bytes; the run counter 0, the pixel written at its slot and made
the previous pixel, one pixel less left. -/
def Obligations.NewPixelResult : Prop :=
  ∀ (s : State) (k : Nat) (e : Enc) (q : Pixel) (qs : List Pixel) (p : Pixel),
    s.encs[k]? = some e → e.phase = .pixels → e.input = q :: qs → formPixel e.channels q = p → p ≠ e.pp →
    (e.run = 0 ∨ 2 ≤ e.run) → e.output.length + 6 < 2 ^ 64 →
    ∃ bytes : List Byte,
      bytes = (if e.run = 0 then [] else [0xC0 ||| (e.run - 2).setWidth 8]) ++
        encode (selectChunk s.params e.hist e.pp p) ∧
      tick (.enc k) s = .next (s.setEnc k { e with
        input := qs, run := 0, output := e.output ++ bytes, outpos := e.outpos + BitVec.ofNat 64 bytes.length
        hist := writeSlot e.hist (pHash s.params p) p, pp := p
        left := e.left - 1, phase := if e.left = 1 then .finish else .pixels })

/-- The channel differences (R133): under WRAP8 each is the value in -128..127 congruent to the plain difference modulo
256; under EXACT it is the plain difference. -/
def Obligations.DeltasOfPixels : Prop :=
  ∀ (p pp : Pixel),
    (let d := deltas .wrap8 p pp;
      (∀ v ∈ [d.dr, d.dg, d.db, d.drDg, d.dbDg], -128 ≤ v ∧ v ≤ 127) ∧
      (d.dr - (p.r.toNat - pp.r.toNat)) % 256 = 0 ∧ (d.dg - (p.g.toNat - pp.g.toNat)) % 256 = 0 ∧
      (d.db - (p.b.toNat - pp.b.toNat)) % 256 = 0 ∧
      (d.drDg - (d.dr - d.dg)) % 256 = 0 ∧ (d.dbDg - (d.db - d.dg)) % 256 = 0) ∧
    (let d := deltas .exact p pp;
      d.dr = p.r.toNat - pp.r.toNat ∧ d.dg = p.g.toNat - pp.g.toNat ∧ d.db = p.b.toNat - pp.b.toNat ∧
      d.drDg = d.dr - d.dg ∧ d.dbDg = d.db - d.dg)

/-- The outer `s8` on `dr_dg` and `db_dg` never changes whether the LUMA condition holds (R133). -/
def Obligations.LumaConditionNeedsNoOuterWrap : Prop :=
  ∀ (p pp : Pixel),
    let d := deltas .wrap8 p pp;
    (-32 ≤ d.dg ∧ d.dg ≤ 31) →
      ((-8 ≤ d.drDg ∧ d.drDg ≤ 7) ↔ (-8 ≤ d.dr - d.dg ∧ d.dr - d.dg ≤ 7)) ∧
      ((-8 ≤ d.dbDg ∧ d.dbDg ≤ 7) ↔ (-8 ≤ d.db - d.dg ∧ d.db - d.dg ≤ 7))

/-- The fixed priority of the selection, INDEX, DIFF, LUMA, RGBA, RGB (R130 steps 3 to 6, R135 to R139). -/
def Obligations.SelectionPriority : Prop :=
  ∀ (P : Params) (h : History) (pp p : Pixel),
    let d := deltas P.deltaArith p pp
    let hit := readSlot h (pHash P p) = p
    let diff := p.a = pp.a ∧ (-2 ≤ d.dr ∧ d.dr ≤ 1) ∧ (-2 ≤ d.dg ∧ d.dg ≤ 1) ∧ (-2 ≤ d.db ∧ d.db ≤ 1)
    let luma := p.a = pp.a ∧ (-32 ≤ d.dg ∧ d.dg ≤ 31) ∧ (-8 ≤ d.drDg ∧ d.drDg ≤ 7) ∧ (-8 ≤ d.dbDg ∧ d.dbDg ≤ 7)
    (hit → selectChunk P h pp p = .index (pHash P p)) ∧
    (¬ hit → diff → selectChunk P h pp p = .diff d.dr d.dg d.db) ∧
    (¬ hit → ¬ diff → luma → selectChunk P h pp p = .luma d.dg d.drDg d.dbDg) ∧
    (¬ hit → p.a ≠ pp.a → selectChunk P h pp p = .rgba p.r p.g p.b p.a) ∧
    (¬ hit → ¬ diff → ¬ luma → p.a = pp.a → selectChunk P h pp p = .rgb p.r p.g p.b)

/-- What the encoder never emits for a pixel that differs from the previous one (R142): an ill-formed chunk, a RUN, a
DIFF with all differences 0, a LUMA that fits DIFF, an RGBA with the previous alpha, an INDEX whose slot does not hold
the pixel.R101 has DIFF 0, 0, 0 among what it can emit, and R142 is followed (log entry 24). -/
def Obligations.NeverEmitted : Prop :=
  ∀ (P : Params) (h : History) (pp p : Pixel), p ≠ pp →
    wellFormed (selectChunk P h pp p) = true ∧
    (∀ n, selectChunk P h pp p ≠ .run n) ∧
    selectChunk P h pp p ≠ .diff 0 0 0 ∧
    (∀ dg drDg dbDg, selectChunk P h pp p = .luma dg drDg dbDg →
      ¬ ((-2 ≤ dg ∧ dg ≤ 1) ∧ (-2 ≤ drDg + dg ∧ drDg + dg ≤ 1) ∧ (-2 ≤ dbDg + dg ∧ dbDg + dg ≤ 1))) ∧
    (∀ r g b a, selectChunk P h pp p = .rgba r g b a → a ≠ pp.a) ∧
    (∀ i, selectChunk P h pp p = .index i → readSlot h i = p)

/-- EncFinish (R113): the pending run's byte, if a run is pending, then the terminator; STATUS with DONE and OK alone,
phase DONE. -/
def Obligations.EncFinishResult : Prop :=
  ∀ (s : State) (k : Nat) (e : Enc),
    s.encs[k]? = some e → e.phase = .finish → (e.run = 0 ∨ 2 ≤ e.run) → e.output.length + 9 < 2 ^ 64 →
    ∃ bytes : List Byte,
      bytes = (if e.run = 0 then [] else [0xC0 ||| (e.run - 2).setWidth 8]) ++ [0, 0, 0, 0, 0, 0, 0, 1] ∧
      tick (.enc k) s = .next (s.setEnc k { e with
        run := 0, output := e.output ++ bytes, outpos := e.outpos + BitVec.ofNat 64 bytes.length
        status := 0x06, phase := .done })

/-- A run of `m` repetitions of the previous pixel, ended, comes out as `f = (m - 1) / 62` bytes 0xFD and one byte
`0xC0 | (m - 62 f - 1)` (R143). -/
def Obligations.RunOfRepetitionsBytes : Prop :=
  ∀ (P : Params) (q : Pixel) (e : Enc) (m : Nat),
    1 ≤ m → e.run = 0 → formPixel e.channels q = e.pp →
    let e' := Enc.flushRun ((Enc.pixel P q)^[m] e)
    e'.output = e.output ++ List.replicate ((m - 1) / 62) 0xFD ++ [0xC0 ||| BitVec.ofNat 8 (m - 62 * ((m - 1) / 62) - 1)] ∧
    m - 62 * ((m - 1) / 62) ∈ Finset.Icc 1 62 ∧
    e'.run = 0 ∧ e'.pp = e.pp ∧ e'.hist = e.hist

/-! ## Engines that wait, and reset -/

/-- An encoder waits in PIXELS while its pixel input is empty (R46, R216), and engines in IDLE or DONE take no step of
their own (R222). That a turn given to such an engine is answered by a next state, the same block, is the model's choice
(log entry 20). -/
def Obligations.WaitingEnginesDoNothing : Prop :=
  (∀ (s : State) (k : Nat) (e : Enc), s.encs[k]? = some e →
    (e.phase = .pixels ∧ e.input = []) ∨ e.phase = .idle ∨ e.phase = .done → tick (.enc k) s = .next s) ∧
  (∀ (s : State) (k : Nat) (d : Dec), s.decs[k]? = some d → d.phase = .idle ∨ d.phase = .done →
    tick (.dec k) s = .next s)

/-- After reset every engine has the values R50 and R51 state, and the block does nothing until the HOST acts (R241). The
number of engines and the parameters are the defaults of R9 to R11 (log entries 1, 16 and 21). That a block in which
nothing can move steps to itself is the model's choice (log entry 20). -/
def Obligations.ResetValues : Prop :=
  (∀ e ∈ State.reset.encs, e.phase = .idle ∧ e.status = 0 ∧ e.width = 0 ∧ e.height = 0 ∧ e.channels = 0 ∧
    e.colorspace = 0 ∧ e.left = 0 ∧ e.outpos = 0 ∧ e.output = [] ∧ e.input = []) ∧
  (∀ d ∈ State.reset.decs, d.phase = .idle ∧ d.status = 0 ∧ d.width = 0 ∧ d.height = 0 ∧ d.channels = 0 ∧
    d.colorspace = 0 ∧ d.left = 0 ∧ d.inpos = 0 ∧ d.output = [] ∧ d.src = []) ∧
  State.reset.encs.length = 1 ∧ State.reset.decs.length = 1 ∧
  State.reset.params = { hash := .default, deltaArith := .wrap8 } ∧
  step State.reset = .next State.reset

/-- Hardware reset is taken in any state: every engine gets the values of R50 and R51 (R240). That the parameters, the
number of engines and the rest of the agenda are kept is the model's choice (log entry 5). -/
def Obligations.HardwareResetFromAnyState : Prop :=
  ∀ (s : State) (more : List Move), s.agenda = .hardReset :: more →
    ∃ t, step s = .next t ∧ t.agenda = more ∧ t.params = s.params ∧
      t.encs.length = s.encs.length ∧ t.decs.length = s.decs.length ∧
      (∀ e ∈ t.encs, e.phase = .idle ∧ e.status = 0 ∧ e.width = 0 ∧ e.height = 0 ∧ e.channels = 0 ∧
        e.colorspace = 0 ∧ e.left = 0 ∧ e.outpos = 0 ∧ e.output = [] ∧ e.input = []) ∧
      (∀ d ∈ t.decs, d.phase = .idle ∧ d.status = 0 ∧ d.width = 0 ∧ d.height = 0 ∧ d.channels = 0 ∧
        d.colorspace = 0 ∧ d.left = 0 ∧ d.inpos = 0 ∧ d.output = [] ∧ d.src = [])

/-! ## Invariants of every step -/

/-- The invariants hold after reset. -/
def Obligations.ResetMeetsInvariants : Prop :=
  (∀ e ∈ State.reset.encs, EncInv e ∧ EncBound e) ∧ (∀ d ∈ State.reset.decs, DecInv d) ∧ CachesInv State.reset

/-- Every step keeps every encoder's invariant: STATUS follows PHASE; outside IDLE the run counter is 0 or 2..63, and in
DONE it is 0 (in IDLE, where R53 says 0, an abort has kept the counter, by R220: log entry 7); LEFT is not 0 in PIXELS and
is 0 in FINISH and DONE; OUTPOS counts the output; outside IDLE alpha is 255 in a job without alpha (R29, R42, R53, R131,
R216). -/
def Obligations.StepKeepsEncoderInvariant : Prop :=
  ∀ (s t : State), (∀ e ∈ s.encs, EncInv e) → step s = .next t → ∀ e ∈ t.encs, EncInv e

/-- Every step keeps the bound on an encode job's output (R31, R97). -/
def Obligations.StepKeepsOutputBound : Prop :=
  ∀ (s t : State), (∀ e ∈ s.encs, EncInv e ∧ EncBound e) → step s = .next t → ∀ e ∈ t.encs, EncBound e

/-- Every step keeps every decoder's invariant: STATUS follows PHASE and takes no other value, LEFT, D.INPOS within
`src`, the pixels output and left make up the header's count, nothing published without a header (R38, R42, R43, R118,
R170, R213). -/
def Obligations.StepKeepsDecoderInvariant : Prop :=
  ∀ (s t : State), (∀ d ∈ s.decs, DecInv d) → step s = .next t → ∀ d ∈ t.decs, DecInv d

/-- Every step keeps R55: in an engine that has a job, each slot is ZERO or holds a pixel whose hash is the slot's
number, whatever `P_HASH` is. -/
def Obligations.StepKeepsCacheInvariant : Prop :=
  ∀ (s t : State), CachesInv s → step s = .next t → CachesInv t

/-- BAD_TAG is never reported, the reserved error codes and bit 7 never appear, in any decoder that meets its invariant
(R43, R213). -/
def Obligations.NoBadTagNoReservedCode : Prop :=
  ∀ d : Dec, DecInv d →
    (statusErr d.status = 0 ∨ statusErr d.status = 1 ∨ statusErr d.status = 3 ∨ statusErr d.status = 4) ∧
    d.status.getLsbD 7 = false

/-! ## Rules of the whole block -/

/-- No step changes the parameters or the number of engines (R9 to R11). Their place in State is the model's choice (log
entries 16 and 21), and so is that a hardware reset keeps them (log entry 5). -/
def Obligations.StepKeepsParametersAndEngines : Prop :=
  ∀ (s t : State), step s = .next t →
    t.params = s.params ∧ t.encs.length = s.encs.length ∧ t.decs.length = s.decs.length

/-- "No step of one engine reads or writes state of another engine" (R20): writes. -/
def Obligations.EngineStepWritesOnlyItself : Prop :=
  (∀ (s t : State) (k : Nat), tick (.enc k) s = .next t →
    t.decs = s.decs ∧ ∀ j, j ≠ k → t.encs[j]? = s.encs[j]?) ∧
  (∀ (s t : State) (k : Nat), tick (.dec k) s = .next t →
    t.encs = s.encs ∧ ∀ j, j ≠ k → t.decs[j]? = s.decs[j]?)

/-- "No step of one engine reads or writes state of another engine" (R20): reads. Two blocks with the same parameters and
the same engine take the same step of it, whatever else they hold. -/
def Obligations.EngineStepReadsOnlyItself : Prop :=
  (∀ (s t s' : State) (k : Nat), s.params = t.params → s.encs[k]? = t.encs[k]? → tick (.enc k) s = .next s' →
    ∃ t', tick (.enc k) t = .next t' ∧ t'.encs[k]? = s'.encs[k]?) ∧
  (∀ (s t s' : State) (k : Nat), s.params = t.params → s.decs[k]? = t.decs[k]? → tick (.dec k) s = .next s' →
    ∃ t', tick (.dec k) t = .next t' ∧ t'.decs[k]? = s'.decs[k]?)

/-- "Every interleaving gives each engine the same result" (R226): the steps of two engines commute. -/
def Obligations.EngineStepsCommute : Prop :=
  ∀ (s a b : State) (e f : EngineId), e ≠ f → tick e s = .next a → tick f a = .next b →
    ∃ a' b', tick f s = .next a' ∧ tick e a' = .next b' ∧ SameBlock b b'

/-- A decoder's own step never moves D.INPOS backwards, never changes `src` and only appends to the pixel output (R38,
R49, R62); an encoder's own step only appends to the byte output (R47, R62). -/
def Obligations.StreamsOnlyGoForward : Prop :=
  (∀ (s t : State) (k : Nat) (d : Dec), s.decs[k]? = some d → d.src.length < 2 ^ 64 → d.inpos.toNat ≤ d.src.length →
    tick (.dec k) s = .next t →
    ∃ d', t.decs[k]? = some d' ∧ d.inpos.toNat ≤ d'.inpos.toNat ∧ d'.inpos.toNat ≤ d'.src.length ∧
      d'.src = d.src ∧ d.output <+: d'.output) ∧
  (∀ (s t : State) (k : Nat) (e : Enc), s.encs[k]? = some e → tick (.enc k) s = .next t →
    ∃ e', t.encs[k]? = some e' ∧ e.output <+: e'.output)

/-! ## Jobs -/

/-- Encoder and decoder stay in lockstep over one pixel (R54): if both hold the same previous pixel and history cache,
the chunk selected for a pixel decodes to that pixel and leaves both with the same previous pixel and cache,
whatever `P_HASH` and `P_DELTA_ARITH` are. -/
def Obligations.SelectedChunkDecodesToThePixel : Prop :=
  ∀ (s : State) (d : Dec) (e : Enc) (p : Pixel),
    s.decs[s.sel]? = some d → d.phase = .chunks → d.pp = e.pp → d.hist = e.hist →
    ∃ d', exec (selectChunk s.params e.hist e.pp p) s = .next (s.setDec s.sel d') ∧
      d'.output = d.output ++ [p] ∧
      d'.pp = (e.newPixel s.params p).pp ∧ d'.hist = (e.newPixel s.params p).hist

/-- An encode job whose HOST supplies its pixels ends after exactly N + 2 steps of the engine, the start, N pixels and
the finish, in DONE with OK: one step before the last the engine is still in FINISH (R144, R216, R251). The HOST's append
is one more step of the model (log entry 2). -/
def Obligations.EncodeJobCompletes : Prop :=
  ∀ (s : State) (k : Nat) (e : Enc) (w h : BitVec 32) (ch cs : Byte) (ps : List Pixel),
    s.encs[k]? = some e → e.free → ps.length = w.toNat * h.toNat → 22 + 5 * ps.length < 2 ^ 64 →
    (∃ v x, steps (ps.length + 2) { s with agenda := encodeAgenda k w h ch cs ps } = .next v ∧
      v.encs[k]? = some x ∧ x.phase = .finish) ∧
    ∃ t e', steps (ps.length + 3) { s with agenda := encodeAgenda k w h ch cs ps } = .next t ∧
      t.encs[k]? = some e' ∧ e'.phase = .done ∧ e'.status = 0x06 ∧ e'.left = 0 ∧ e'.input = [] ∧
      e'.output.take 14 = headerBytes w h ch cs ∧ e'.output.drop (e'.output.length - 8) = terminator ∧
      t.agenda = [] ∧ t.decs = s.decs

/-- A decode job ends, whatever its bytes are, after at most N + 2 further steps from phase HEADER, N the pixel count of
the header registers it leaves (R251). -/
def Obligations.DecodeJobEnds : Prop :=
  ∀ (s : State) (k : Nat) (d : Dec), s.decs[k]? = some d → DecInv d → d.phase = .header →
    ∃ n t d', ticks (.dec k) n s = .next t ∧ t.decs[k]? = some d' ∧ d'.phase = .done ∧
      n ≤ (pixelCount d'.width d'.height).toNat + 2

/-- The round trip (R54): any image encoded by an engine of the block and decoded by another gives back the header and
the pixels as the encoder formed them, with success, the whole stream read, and both engines with the same previous
pixel and history cache; whatever `P_HASH` and `P_DELTA_ARITH` are. -/
def Obligations.DecodeOfEncodedImage : Prop :=
  ∀ (s : State) (k j : Nat) (e : Enc) (d : Dec) (w h : BitVec 32) (ch cs : Byte) (ps : List Pixel),
    s.encs[k]? = some e → e.free → s.decs[j]? = some d → d.free →
    ps.length = w.toNat * h.toNat → 22 + 5 * ps.length < 2 ^ 64 →
    ∃ t e', steps (ps.length + 3) { s with agenda := encodeAgenda k w h ch cs ps } = .next t ∧
      t.encs[k]? = some e' ∧
      ∃ u d', steps (ps.length + 3) { t with agenda := decodeAgenda j e'.output (ps.length + 2) } = .next u ∧
        u.decs[j]? = some d' ∧ d'.phase = .done ∧ d'.status = 0x46 ∧
        d'.output = ps.map (formPixel ch) ∧
        d'.width = w ∧ d'.height = h ∧ d'.channels = ch ∧ d'.colorspace = cs ∧
        d'.inpos.toNat = e'.output.length ∧ d'.pp = e'.pp ∧ d'.hist = e'.hist

/-- Lockstep at every pixel (R54): while a decoder decodes an encoded image, then for every n from 0 to the pixel count
the decoder's previous pixel and history cache after n pixels output are those the encoder held when it had consumed n
pixels, whatever `P_HASH` and `P_DELTA_ARITH` are; and the decoder outputs the pixels as the encoder formed them.
A RUN chunk outputs several pixels in one step, with the previous pixel and the cache unchanged over all of them: the
state at a step boundary stands for the number of pixels output there and for every n that the step itself passed.
The spec marks its statement of this as derived, and not proved. -/
def Obligations.LockstepAtEveryPixel : Prop :=
  ∀ (s : State) (k j : Nat) (e : Enc) (d : Dec) (w h : BitVec 32) (ch cs : Byte) (ps : List Pixel),
    s.encs[k]? = some e → e.free → s.decs[j]? = some d → d.free →
    ps.length = w.toNat * h.toNat → 22 + 5 * ps.length < 2 ^ 64 →
    ∃ t e', steps (ps.length + 3) { s with agenda := encodeAgenda k w h ch cs ps } = .next t ∧
      t.encs[k]? = some e' ∧ e'.phase = .done ∧
      let decoding : State := { t with agenda := decodeAgenda j e'.output (ps.length + 2) }
      ∀ m, m ≤ ps.length + 2 →
        ∃ u d', steps (m + 1) decoding = .next u ∧ u.decs[j]? = some d' ∧
          d'.output = (ps.map (formPixel ch)).take d'.output.length ∧
          (m = ps.length + 2 → d'.output = ps.map (formPixel ch)) ∧
          ∀ n, n = d'.output.length ∨ (n < d'.output.length ∧
              ∃ m' u' d'', m = m' + 1 ∧ steps (m' + 1) decoding = .next u' ∧ u'.decs[j]? = some d'' ∧
                d''.output.length < n) →
            ∃ v e'', steps (n + 2) { s with agenda := encodeAgenda k w h ch cs ps } = .next v ∧
              v.encs[k]? = some e'' ∧ d'.pp = e''.pp ∧ d'.hist = e''.hist

/-! ## Which chunks the encoder emits -/

/-- The chunks that the selection can give are exactly those that R101 lists, but for DIFF 0, 0, 0: any RGB, RGBA or
INDEX, the DIFFs in range that change the pixel, and the LUMAs in range that do not fit DIFF (R135 to R139, R142, R145).
R101 lists DIFF 0, 0, 0 too, and R96, R136 and R142 are followed (log entry 24). That every INDEX comes up is stated for
the default `P_HASH` (log entry 1), since another one need not take every value. -/
def Obligations.SelectableChunks : Prop :=
  ∀ (P : Params) (i : Instr), (∀ slot, i = .index slot → P.hash = .default) →
    ((∃ (h : History) (pp p : Pixel), p ≠ pp ∧ selectChunk P h pp p = i) ↔
      wellFormed i = true ∧ isPixelChunk i = true ∧ i ≠ .diff 0 0 0 ∧
      ∀ dg drDg dbDg, i = .luma dg drDg dbDg →
        ¬ ((-2 ≤ dg ∧ dg ≤ 1) ∧ (-2 ≤ drDg + dg ∧ drDg + dg ≤ 1) ∧ (-2 ≤ dbDg + dg ∧ dbDg + dg ≤ 1)))

/-- The first chunk of an encoded image is a RUN exactly when its first pixel, as the encoder forms it, is SEED: "the
first pixel of a job takes this path when it equals SEED" (R132, with R111, R130 and R113). R96 says that the encoder
never emits a RUN first, and R132 is followed (log entry 23). -/
def Obligations.FirstChunkIsARunForSeed : Prop :=
  ∀ (s : State) (k : Nat) (e : Enc) (w h : BitVec 32) (ch cs : Byte) (p : Pixel) (ps : List Pixel),
    s.encs[k]? = some e → e.free → (p :: ps).length = w.toNat * h.toNat → 22 + 5 * (p :: ps).length < 2 ^ 64 →
    ∃ t e' tag, steps (ps.length + 4) { s with agenda := encodeAgenda k w h ch cs (p :: ps) } = .next t ∧
      t.encs[k]? = some e' ∧ e'.phase = .done ∧ e'.output[14]? = some tag ∧
      (kind tag = .run ↔ formPixel ch p = .seed)
end

