-- ==== Sys2Proof/Laws/Decode.lean ====
section
/-! SUPPORT. Small lemmas about the wire format, and the lengths of encodings. -/

namespace Sys2Proof

theorem inRange_iff {lo hi v : Int} : inRange lo hi v = true ↔ lo ≤ v ∧ v ≤ hi := by simp [inRange]

/-- A biased field is in its range (R93). -/
theorem biasedField_range (byte : Byte) (lo len : Nat) (bias : Int) :
    -bias ≤ biasedField byte lo len bias ∧ biasedField byte lo len bias < 2 ^ len - bias := by
  have h := (byte.extractLsb' lo len).isLt
  have h' : ((byte.extractLsb' lo len).toNat : Int) < 2 ^ len := by exact_mod_cast h
  unfold biasedField
  omega

/-! ## The decoder, kind by kind -/

theorem decode_rgb {t : Byte} (h : kind t = .rgb) (r g b : Byte) (rest : List Byte) :
    decode (t :: r :: g :: b :: rest) = .ok (.rgb r g b, rest) := by simp [decode, h]

theorem decode_rgba {t : Byte} (h : kind t = .rgba) (r g b a : Byte) (rest : List Byte) :
    decode (t :: r :: g :: b :: a :: rest) = .ok (.rgba r g b a, rest) := by simp [decode, h]

theorem decode_run {t : Byte} (h : kind t = .run) (rest : List Byte) :
    decode (t :: rest) = .ok (.run ((t.extractLsb' 0 6).toNat + 1), rest) := by simp [decode, h]

theorem decode_index {t : Byte} (h : kind t = .index) (rest : List Byte) :
    decode (t :: rest) = .ok (.index (t.extractLsb' 0 6).toFin, rest) := by simp [decode, h]

theorem decode_diff {t : Byte} (h : kind t = .diff) (rest : List Byte) :
    decode (t :: rest) =
      .ok (.diff (biasedField t 4 2 2) (biasedField t 2 2 2) (biasedField t 0 2 2), rest) := by simp [decode, h]

theorem decode_luma {t : Byte} (h : kind t = .luma) (u : Byte) (rest : List Byte) :
    decode (t :: u :: rest) =
      .ok (.luma (biasedField t 0 6 32) (biasedField u 4 4 8) (biasedField u 0 4 8), rest) := by simp [decode, h]

/-- The length that a kind goes with (R92). -/
theorem chunkLen_eq : ∀ t : Byte,
    chunkLen t = match kind t with | .rgb => 4 | .rgba => 5 | .luma => 2 | .run => 1 | .index => 1 | .diff => 1 := by
  decide

/-- What a decoded chunk took: as many bytes as its tag says, and no byte after them had a say (R77, R92). -/
theorem decode_took {t : Byte} {bytes rest : List Byte} {i : Instr} (h : decode (t :: bytes) = .ok (i, rest)) :
    i.length = chunkLen t ∧ chunkLen t ≤ bytes.length + 1 ∧
    decode (t :: bytes.take (chunkLen t - 1)) = .ok (i, []) := by
  rw [chunkLen_eq]
  rcases hk : kind t with _ | _ | _ | _ | _ | _
  · rcases bytes with _ | ⟨r, _ | ⟨g, _ | ⟨b, m⟩⟩⟩
    iterate 3 (simp [decode, hk] at h)
    rw [decode_rgb hk] at h; cases h
    exact ⟨rfl, by simp, decode_rgb hk ..⟩
  · rcases bytes with _ | ⟨r, _ | ⟨g, _ | ⟨b, _ | ⟨a, m⟩⟩⟩⟩
    iterate 4 (simp [decode, hk] at h)
    rw [decode_rgba hk] at h; cases h
    exact ⟨rfl, by simp, decode_rgba hk ..⟩
  · rw [decode_run hk] at h; cases h
    exact ⟨rfl, by simp, decode_run hk _⟩
  · rw [decode_index hk] at h; cases h
    exact ⟨rfl, by simp, decode_index hk _⟩
  · rw [decode_diff hk] at h; cases h
    exact ⟨rfl, by simp, decode_diff hk _⟩
  · rcases bytes with _ | ⟨u, m⟩
    · simp [decode, hk] at h
    rw [decode_luma hk] at h; cases h
    exact ⟨rfl, by simp, decode_luma hk ..⟩

/-- A chunk whose bytes are all there decodes (R95). -/
theorem decode_complete {t : Byte} {bytes : List Byte} (h : chunkLen t ≤ bytes.length + 1) :
    ∃ i rest, decode (t :: bytes) = .ok (i, rest) := by
  rw [chunkLen_eq] at h
  rcases hk : kind t with _ | _ | _ | _ | _ | _ <;> simp only [hk] at h
  · obtain ⟨r, g, b, m, rfl⟩ : ∃ r g b m, bytes = r :: g :: b :: m := by
      rcases bytes with _ | ⟨r, _ | ⟨g, _ | ⟨b, m⟩⟩⟩ <;> simp at h ⊢
    exact ⟨_, _, decode_rgb hk ..⟩
  · obtain ⟨r, g, b, a, m, rfl⟩ : ∃ r g b a m, bytes = r :: g :: b :: a :: m := by
      rcases bytes with _ | ⟨r, _ | ⟨g, _ | ⟨b, _ | ⟨a, m⟩⟩⟩⟩ <;> simp at h ⊢
    exact ⟨_, _, decode_rgba hk ..⟩
  · exact ⟨_, _, decode_run hk _⟩
  · exact ⟨_, _, decode_index hk _⟩
  · exact ⟨_, _, decode_diff hk _⟩
  · obtain ⟨u, m, rfl⟩ : ∃ u m, bytes = u :: m := by rcases bytes with _ | ⟨u, m⟩ <;> simp at h ⊢
    exact ⟨_, _, decode_luma hk ..⟩

/-! ## Lengths -/

@[simp] theorem encode_length (i : Instr) : (encode i).length = i.length := by cases i <;> rfl

theorem instr_length_pos (i : Instr) : 0 < i.length := by cases i <;> simp [Instr.length]

theorem instr_length_le (i : Instr) : i.length ≤ 5 := by cases i <;> simp [Instr.length]

end Sys2Proof
end

