-- ==== Sys2Proof/Laws/State.lean ====
section
/-! SUPPORT. One lemma per field per update of the state, true by `rfl`, so that no later proof unfolds a record update;
and reading an engine after writing one. -/

namespace Sys2Proof.Machine

/-! ## The block's fields -/
@[simp] theorem setEnc_params (s : State) (k : Nat) (e : Enc) : (s.setEnc k e).params = s.params := rfl
@[simp] theorem setEnc_encs (s : State) (k : Nat) (e : Enc) : (s.setEnc k e).encs = s.encs.set k e := rfl
@[simp] theorem setEnc_decs (s : State) (k : Nat) (e : Enc) : (s.setEnc k e).decs = s.decs := rfl
@[simp] theorem setEnc_agenda (s : State) (k : Nat) (e : Enc) : (s.setEnc k e).agenda = s.agenda := rfl
@[simp] theorem setEnc_sel (s : State) (k : Nat) (e : Enc) : (s.setEnc k e).sel = s.sel := rfl
@[simp] theorem setEnc_resets (s : State) (k : Nat) (e : Enc) : (s.setEnc k e).resets = s.resets := rfl

@[simp] theorem setDec_params (s : State) (k : Nat) (d : Dec) : (s.setDec k d).params = s.params := rfl
@[simp] theorem setDec_encs (s : State) (k : Nat) (d : Dec) : (s.setDec k d).encs = s.encs := rfl
@[simp] theorem setDec_decs (s : State) (k : Nat) (d : Dec) : (s.setDec k d).decs = s.decs.set k d := rfl
@[simp] theorem setDec_agenda (s : State) (k : Nat) (d : Dec) : (s.setDec k d).agenda = s.agenda := rfl
@[simp] theorem setDec_sel (s : State) (k : Nat) (d : Dec) : (s.setDec k d).sel = s.sel := rfl
@[simp] theorem setDec_resets (s : State) (k : Nat) (d : Dec) : (s.setDec k d).resets = s.resets := rfl

/-! ## The encoder's fields -/

@[simp] theorem outByte_phase (e : Enc) (v : Byte) : (e.outByte v).phase = e.phase := rfl
@[simp] theorem outByte_width (e : Enc) (v : Byte) : (e.outByte v).width = e.width := rfl
@[simp] theorem outByte_height (e : Enc) (v : Byte) : (e.outByte v).height = e.height := rfl
@[simp] theorem outByte_channels (e : Enc) (v : Byte) : (e.outByte v).channels = e.channels := rfl
@[simp] theorem outByte_colorspace (e : Enc) (v : Byte) : (e.outByte v).colorspace = e.colorspace := rfl
@[simp] theorem outByte_pp (e : Enc) (v : Byte) : (e.outByte v).pp = e.pp := rfl
@[simp] theorem outByte_hist (e : Enc) (v : Byte) : (e.outByte v).hist = e.hist := rfl
@[simp] theorem outByte_run (e : Enc) (v : Byte) : (e.outByte v).run = e.run := rfl
@[simp] theorem outByte_left (e : Enc) (v : Byte) : (e.outByte v).left = e.left := rfl
@[simp] theorem outByte_outpos (e : Enc) (v : Byte) : (e.outByte v).outpos = e.outpos + 1 := rfl
@[simp] theorem outByte_status (e : Enc) (v : Byte) : (e.outByte v).status = e.status := rfl
@[simp] theorem outByte_output (e : Enc) (v : Byte) : (e.outByte v).output = e.output ++ [v] := rfl
@[simp] theorem outByte_input (e : Enc) (v : Byte) : (e.outByte v).input = e.input := rfl

@[simp] theorem encAbort_phase (e : Enc) : (e.abort).phase = .idle := rfl
@[simp] theorem encAbort_width (e : Enc) : (e.abort).width = e.width := rfl
@[simp] theorem encAbort_height (e : Enc) : (e.abort).height = e.height := rfl
@[simp] theorem encAbort_channels (e : Enc) : (e.abort).channels = e.channels := rfl
@[simp] theorem encAbort_colorspace (e : Enc) : (e.abort).colorspace = e.colorspace := rfl
@[simp] theorem encAbort_pp (e : Enc) : (e.abort).pp = e.pp := rfl
@[simp] theorem encAbort_hist (e : Enc) : (e.abort).hist = e.hist := rfl
@[simp] theorem encAbort_run (e : Enc) : (e.abort).run = e.run := rfl
@[simp] theorem encAbort_left (e : Enc) : (e.abort).left = e.left := rfl
@[simp] theorem encAbort_outpos (e : Enc) : (e.abort).outpos = e.outpos := rfl
@[simp] theorem encAbort_status (e : Enc) : (e.abort).status = 0 := rfl
@[simp] theorem encAbort_output (e : Enc) : (e.abort).output = e.output := rfl
@[simp] theorem encAbort_input (e : Enc) : (e.abort).input = e.input := rfl

@[simp] theorem countPixel_phase (e : Enc) : (e.countPixel).phase = if e.left - 1 = 0 then .finish else e.phase := rfl
@[simp] theorem countPixel_width (e : Enc) : (e.countPixel).width = e.width := rfl
@[simp] theorem countPixel_height (e : Enc) : (e.countPixel).height = e.height := rfl
@[simp] theorem countPixel_channels (e : Enc) : (e.countPixel).channels = e.channels := rfl
@[simp] theorem countPixel_colorspace (e : Enc) : (e.countPixel).colorspace = e.colorspace := rfl
@[simp] theorem countPixel_pp (e : Enc) : (e.countPixel).pp = e.pp := rfl
@[simp] theorem countPixel_hist (e : Enc) : (e.countPixel).hist = e.hist := rfl
@[simp] theorem countPixel_run (e : Enc) : (e.countPixel).run = e.run := rfl
@[simp] theorem countPixel_left (e : Enc) : (e.countPixel).left = e.left - 1 := rfl
@[simp] theorem countPixel_outpos (e : Enc) : (e.countPixel).outpos = e.outpos := rfl
@[simp] theorem countPixel_status (e : Enc) : (e.countPixel).status = e.status := rfl
@[simp] theorem countPixel_output (e : Enc) : (e.countPixel).output = e.output := rfl
@[simp] theorem countPixel_input (e : Enc) : (e.countPixel).input = e.input := rfl

/-! ## The decoder's fields -/

@[simp] theorem takePixel_phase (P : Params) (d : Dec) (px : Pixel) : (d.takePixel P px).phase = d.phase := rfl
@[simp] theorem takePixel_width (P : Params) (d : Dec) (px : Pixel) : (d.takePixel P px).width = d.width := rfl
@[simp] theorem takePixel_height (P : Params) (d : Dec) (px : Pixel) : (d.takePixel P px).height = d.height := rfl
@[simp] theorem takePixel_channels (P : Params) (d : Dec) (px : Pixel) : (d.takePixel P px).channels = d.channels := rfl
@[simp] theorem takePixel_colorspace (P : Params) (d : Dec) (px : Pixel) : (d.takePixel P px).colorspace = d.colorspace := rfl
@[simp] theorem takePixel_pp (P : Params) (d : Dec) (px : Pixel) : (d.takePixel P px).pp = px := rfl
@[simp] theorem takePixel_hist (P : Params) (d : Dec) (px : Pixel) : (d.takePixel P px).hist = writeSlot d.hist (pHash P px) px := rfl
@[simp] theorem takePixel_left (P : Params) (d : Dec) (px : Pixel) : (d.takePixel P px).left = d.left - 1 := rfl
@[simp] theorem takePixel_inpos (P : Params) (d : Dec) (px : Pixel) : (d.takePixel P px).inpos = d.inpos := rfl
@[simp] theorem takePixel_status (P : Params) (d : Dec) (px : Pixel) : (d.takePixel P px).status = d.status := rfl
@[simp] theorem takePixel_src (P : Params) (d : Dec) (px : Pixel) : (d.takePixel P px).src = d.src := rfl
@[simp] theorem takePixel_output (P : Params) (d : Dec) (px : Pixel) : (d.takePixel P px).output = d.output ++ [px] := rfl

@[simp] theorem fail_phase (d : Dec) (code : ErrCode) : (d.fail code).phase = .done := rfl
@[simp] theorem fail_width (d : Dec) (code : ErrCode) : (d.fail code).width = d.width := rfl
@[simp] theorem fail_height (d : Dec) (code : ErrCode) : (d.fail code).height = d.height := rfl
@[simp] theorem fail_channels (d : Dec) (code : ErrCode) : (d.fail code).channels = d.channels := rfl
@[simp] theorem fail_colorspace (d : Dec) (code : ErrCode) : (d.fail code).colorspace = d.colorspace := rfl
@[simp] theorem fail_pp (d : Dec) (code : ErrCode) : (d.fail code).pp = d.pp := rfl
@[simp] theorem fail_hist (d : Dec) (code : ErrCode) : (d.fail code).hist = d.hist := rfl
@[simp] theorem fail_left (d : Dec) (code : ErrCode) : (d.fail code).left = d.left := rfl
@[simp] theorem fail_inpos (d : Dec) (code : ErrCode) : (d.fail code).inpos = d.inpos := rfl
@[simp] theorem fail_status (d : Dec) (code : ErrCode) : (d.fail code).status = statusEnd false code d.status := rfl
@[simp] theorem fail_src (d : Dec) (code : ErrCode) : (d.fail code).src = d.src := rfl
@[simp] theorem fail_output (d : Dec) (code : ErrCode) : (d.fail code).output = d.output := rfl

@[simp] theorem decAbort_phase (d : Dec) : (d.abort).phase = .idle := rfl
@[simp] theorem decAbort_width (d : Dec) : (d.abort).width = d.width := rfl
@[simp] theorem decAbort_height (d : Dec) : (d.abort).height = d.height := rfl
@[simp] theorem decAbort_channels (d : Dec) : (d.abort).channels = d.channels := rfl
@[simp] theorem decAbort_colorspace (d : Dec) : (d.abort).colorspace = d.colorspace := rfl
@[simp] theorem decAbort_pp (d : Dec) : (d.abort).pp = d.pp := rfl
@[simp] theorem decAbort_hist (d : Dec) : (d.abort).hist = d.hist := rfl
@[simp] theorem decAbort_left (d : Dec) : (d.abort).left = d.left := rfl
@[simp] theorem decAbort_inpos (d : Dec) : (d.abort).inpos = d.inpos := rfl
@[simp] theorem decAbort_status (d : Dec) : (d.abort).status = 0 := rfl
@[simp] theorem decAbort_src (d : Dec) : (d.abort).src = d.src := rfl
@[simp] theorem decAbort_output (d : Dec) : (d.abort).output = d.output := rfl

@[simp] theorem decStart_phase (src : List Byte) (d : Dec) : (d.start src).phase = .header := rfl
@[simp] theorem decStart_width (src : List Byte) (d : Dec) : (d.start src).width = 0 := rfl
@[simp] theorem decStart_height (src : List Byte) (d : Dec) : (d.start src).height = 0 := rfl
@[simp] theorem decStart_channels (src : List Byte) (d : Dec) : (d.start src).channels = 0 := rfl
@[simp] theorem decStart_colorspace (src : List Byte) (d : Dec) : (d.start src).colorspace = 0 := rfl
@[simp] theorem decStart_pp (src : List Byte) (d : Dec) : (d.start src).pp = .seed := rfl
@[simp] theorem decStart_hist (src : List Byte) (d : Dec) : (d.start src).hist = clearedHistory := rfl
@[simp] theorem decStart_left (src : List Byte) (d : Dec) : (d.start src).left = 0 := rfl
@[simp] theorem decStart_inpos (src : List Byte) (d : Dec) : (d.start src).inpos = 0 := rfl
@[simp] theorem decStart_status (src : List Byte) (d : Dec) : (d.start src).status = statusStarted := rfl
@[simp] theorem decStart_src (src : List Byte) (d : Dec) : (d.start src).src = src := rfl
@[simp] theorem decStart_output (src : List Byte) (d : Dec) : (d.start src).output = [] := rfl

/-! ## `endChunk` writes the phase alone -/

@[simp] theorem endChunk_phase (d : Dec) : d.endChunk.phase = if d.left = 0 then .trailer else d.phase := by
  unfold Dec.endChunk; split <;> rfl
@[simp] theorem endChunk_width (d : Dec) : d.endChunk.width = d.width := by
  unfold Dec.endChunk; split <;> rfl
@[simp] theorem endChunk_height (d : Dec) : d.endChunk.height = d.height := by
  unfold Dec.endChunk; split <;> rfl
@[simp] theorem endChunk_channels (d : Dec) : d.endChunk.channels = d.channels := by
  unfold Dec.endChunk; split <;> rfl
@[simp] theorem endChunk_colorspace (d : Dec) : d.endChunk.colorspace = d.colorspace := by
  unfold Dec.endChunk; split <;> rfl
@[simp] theorem endChunk_pp (d : Dec) : d.endChunk.pp = d.pp := by
  unfold Dec.endChunk; split <;> rfl
@[simp] theorem endChunk_hist (d : Dec) : d.endChunk.hist = d.hist := by
  unfold Dec.endChunk; split <;> rfl
@[simp] theorem endChunk_left (d : Dec) : d.endChunk.left = d.left := by
  unfold Dec.endChunk; split <;> rfl
@[simp] theorem endChunk_inpos (d : Dec) : d.endChunk.inpos = d.inpos := by
  unfold Dec.endChunk; split <;> rfl
@[simp] theorem endChunk_status (d : Dec) : d.endChunk.status = d.status := by
  unfold Dec.endChunk; split <;> rfl
@[simp] theorem endChunk_src (d : Dec) : d.endChunk.src = d.src := by
  unfold Dec.endChunk; split <;> rfl
@[simp] theorem endChunk_output (d : Dec) : d.endChunk.output = d.output := by
  unfold Dec.endChunk; split <;> rfl

/-! ## Reading an engine after writing one -/

theorem setEnc_get_same {s : State} {k : Nat} {e e' : Enc} (h : s.encs[k]? = some e) :
    (s.setEnc k e').encs[k]? = some e' := by
  have hk : k < s.encs.length := (List.getElem?_eq_some_iff.mp h).1
  simp [hk]

theorem setEnc_get_other {s : State} {k j : Nat} {e : Enc} (h : j ≠ k) : (s.setEnc k e).encs[j]? = s.encs[j]? := by
  simp [h.symm]

theorem setDec_get_same {s : State} {k : Nat} {d d' : Dec} (h : s.decs[k]? = some d) :
    (s.setDec k d').decs[k]? = some d' := by
  have hk : k < s.decs.length := (List.getElem?_eq_some_iff.mp h).1
  simp [hk]

theorem setDec_get_other {s : State} {k j : Nat} {d : Dec} (h : j ≠ k) : (s.setDec k d).decs[j]? = s.decs[j]? := by
  simp [h.symm]

/-- A property of every encoder survives the write of an encoder that has it. -/
theorem setEnc_forall {s : State} {k : Nat} {e : Enc} {p : Enc → Prop} (hs : ∀ x ∈ s.encs, p x) (he : p e) :
    ∀ x ∈ (s.setEnc k e).encs, p x := fun x hx =>
  (List.mem_or_eq_of_mem_set hx).elim (hs x) (fun h => h ▸ he)

/-- A property of every decoder survives the write of a decoder that has it. -/
theorem setDec_forall {s : State} {k : Nat} {d : Dec} {p : Dec → Prop} (hs : ∀ x ∈ s.decs, p x) (hd : p d) :
    ∀ x ∈ (s.setDec k d).decs, p x := fun x hx =>
  (List.mem_or_eq_of_mem_set hx).elim (hs x) (fun h => h ▸ hd)

end Sys2Proof.Machine
end

