-- ==== Sys2Proof/Laws/Ops.lean ====
section
/-! SUPPORT. For each shared operation, once, everything it can do. -/

namespace Sys2Proof.Machine

/-! ## The history cache -/

theorem readSlot_writeSlot_same (h : History) (i : Fin 64) (p : Pixel) : readSlot (writeSlot h i p) i = p := by
  simp [readSlot, writeSlot, Vector.get_eq_getElem]

theorem readSlot_writeSlot_other (h : History) {i j : Fin 64} (p : Pixel) (hij : j ≠ i) :
    readSlot (writeSlot h i p) j = readSlot h j := by
  have : i.val ≠ j.val := fun he => hij (Fin.ext he.symm)
  simp [readSlot, writeSlot, Vector.get_eq_getElem, this]

@[simp] theorem readSlot_cleared (i : Fin 64) : readSlot clearedHistory i = .zero := by
  simp [readSlot, clearedHistory, Vector.get_eq_getElem]

/-- R55 survives the write of a processed pixel. -/
theorem cacheInv_writeSlot {P : Params} {h : History} (hc : CacheInv P h) (p : Pixel) :
    CacheInv P (writeSlot h (pHash P p) p) := fun i => by
  by_cases hi : i = pHash P p
  · subst hi; exact .inr (by rw [readSlot_writeSlot_same])
  · rw [readSlot_writeSlot_other h p hi]; exact hc i

theorem cacheInv_cleared (P : Params) : CacheInv P clearedHistory := fun i => .inl (readSlot_cleared i)

/-! ## The encoder's byte output -/

/-- Emitting bytes appends them and counts them, and does nothing else. -/
theorem outBytes_eq (e : Enc) (vs : List Byte) :
    e.outBytes vs = { e with output := e.output ++ vs, outpos := e.outpos + BitVec.ofNat 64 vs.length } := by
  induction vs generalizing e with
  | nil => simp [Enc.outBytes]
  | cons v vs ih =>
    simp only [Enc.outBytes, ih, Enc.outByte, List.append_assoc, List.cons_append, List.nil_append, List.length_cons,
      Enc.mk.injEq, true_and, and_true]
    rw [Nat.add_comm, BitVec.ofNat_add, BitVec.add_assoc]; rfl

/-- Emitting a chunk appends its bytes, and does nothing else. -/
theorem emit_eq (e : Enc) (i : Instr) :
    e.emit i = { e with output := e.output ++ encode i
                        outpos := e.outpos + BitVec.ofNat 64 (encode i).length } := outBytes_eq e _

/-- `putEnc` answers the block with the encoder written, or refuses a job too long for the model. -/
theorem putEnc_cases (s : State) (k : Nat) (e : Enc) :
    (e.output.length < 2 ^ 64 ∧ s.putEnc k e = .next (s.setEnc k e)) ∨
    (2 ^ 64 ≤ e.output.length ∧ s.putEnc k e = .refused .streamTooLong) := by
  unfold State.putEnc
  split
  · exact .inl ⟨‹_›, rfl⟩
  · exact .inr ⟨Nat.le_of_not_lt ‹_›, rfl⟩

theorem putEnc_next {s t : State} {k : Nat} {e : Enc} (h : s.putEnc k e = .next t) :
    e.output.length < 2 ^ 64 ∧ t = s.setEnc k e := by
  rcases putEnc_cases s k e with ⟨hl, he⟩ | ⟨_, he⟩
  · rw [he] at h; cases h; exact ⟨hl, rfl⟩
  · rw [he] at h; cases h

/-! ## The decoder's byte input -/

theorem inByte_some {d : Dec} {b : Byte} (h : d.srcByte d.inpos.toNat = some b) :
    d.inByte = .got b { d with inpos := d.inpos + 1 } := by
  simp [Dec.inByte, h]

theorem inByte_none {d : Dec} (h : d.srcByte d.inpos.toNat = none) : d.inByte = .failed .truncated d := by
  simp [Dec.inByte, h]

/-- A position inside a `src` shorter than 2^64 bytes counts up without wrapping (R39). -/
theorem inpos_add {d : Dec} {n : Nat} (hs : d.src.length < 2 ^ 64) (h : d.inpos.toNat + n ≤ d.src.length) :
    (d.inpos + BitVec.ofNat 64 n).toNat = d.inpos.toNat + n := by
  simp only [BitVec.toNat_add, BitVec.toNat_ofNat]
  omega

/-- `n` reads give the next `n` bytes when there are so many (R15, R38). -/
theorem inBytes_got {d : Dec} {n : Nat} (hs : d.src.length < 2 ^ 64) (h : d.inpos.toNat + n ≤ d.src.length) :
    d.inBytes n = .got (d.unread.take n) { d with inpos := d.inpos + BitVec.ofNat 64 n } := by
  induction n generalizing d with
  | zero => simp [Dec.inBytes]
  | succ n ih =>
    have hlt : d.inpos.toNat < d.src.length := by omega
    have hb : d.srcByte d.inpos.toNat = some d.src[d.inpos.toNat] := List.getElem?_eq_getElem hlt
    have h1 : (d.inpos + 1).toNat = d.inpos.toNat + 1 := inpos_add (n := 1) hs (by omega)
    have hr := ih (d := { d with inpos := d.inpos + 1 }) hs (by simp only [h1]; omega)
    simp only [Dec.inBytes, inByte_some hb, Read.bind, hr, Dec.unread, h1]
    rw [List.drop_eq_getElem_cons hlt, List.take_succ_cons, Nat.add_comm n 1, BitVec.ofNat_add, ← BitVec.add_assoc]
    rfl

/-- `n` reads fail TRUNCATED at the end of `src` when there are too few bytes (R214). -/
theorem inBytes_failed {d : Dec} {n : Nat} (hs : d.src.length < 2 ^ 64) (hp : d.inpos.toNat ≤ d.src.length)
    (h : d.src.length < d.inpos.toNat + n) :
    d.inBytes n = .failed .truncated { d with inpos := BitVec.ofNat 64 d.src.length } := by
  induction n generalizing d with
  | zero => omega
  | succ n ih =>
    by_cases hlt : d.inpos.toNat < d.src.length
    · have hb : d.srcByte d.inpos.toNat = some d.src[d.inpos.toNat] := List.getElem?_eq_getElem hlt
      have h1 : (d.inpos + 1).toNat = d.inpos.toNat + 1 := inpos_add (n := 1) hs (by omega)
      have hr := ih (d := { d with inpos := d.inpos + 1 }) hs (by simp only [h1]; omega) (by simp only [h1]; omega)
      simp only [Dec.inBytes, inByte_some hb, Read.bind, hr]
    · have he : d.inpos.toNat = d.src.length := by omega
      have hb : d.srcByte d.inpos.toNat = none := List.getElem?_eq_none (by omega)
      simp only [Dec.inBytes, inByte_none hb, Read.bind, ← he, BitVec.ofNat_toNat, BitVec.setWidth_eq]

/-- Four reads of one byte are one read of four bytes, combined by BE32 (R65). -/
theorem inBE32_eq (d : Dec) :
    d.inBE32 = (d.inBytes 4).bind fun bs d =>
      match bs with
      | [b0, b1, b2, b3] => .got (be32 b0 b1 b2 b3) d
      | _ => .failed .truncated d := by
  simp only [Dec.inBE32, Dec.inBytes]
  rcases d.inByte with ⟨b0, d0⟩ | ⟨c, d0⟩ <;> simp only [Read.bind]
  rcases d0.inByte with ⟨b1, d1⟩ | ⟨c, d1⟩ <;> simp only
  rcases d1.inByte with ⟨b2, d2⟩ | ⟨c, d2⟩ <;> simp only
  rcases d2.inByte with ⟨b3, d3⟩ | ⟨c, d3⟩ <;> simp only

/-! ## Chunks -/

/-- A chunk runs in phase CHUNKS of the selected decoder, and is refused elsewhere. -/
theorem onChunk_next {s t : State} {f : Dec → Dec} (h : s.onChunk f = .next t) :
    ∃ d, s.decs[s.sel]? = some d ∧ d.phase = .chunks ∧ t = s.setDec s.sel (f d) := by
  unfold State.onChunk at h
  split at h
  · cases h
  · rename_i d hd
    split at h <;> cases h
    exact ⟨d, hd, ‹_›, rfl⟩

theorem onChunk_chunks {s : State} {d : Dec} (f : Dec → Dec) (hd : s.decs[s.sel]? = some d) (hp : d.phase = .chunks) :
    s.onChunk f = .next (s.setDec s.sel (f d)) := by
  simp [State.onChunk, hd, hp]

/-- The effect of a chunk on the decoder, whichever chunk it is. -/
def Dec.chunkEffect (P : Params) (d : Dec) : Instr → Dec
  | .rgb r g b => d.rgb P r g b
  | .rgba r g b a => d.rgba P r g b a
  | .run n => d.repeatPixel n
  | .index i => d.index P i
  | .diff dr dg db => d.diff P dr dg db
  | .luma dg drDg dbDg => d.luma P dg drDg dbDg

/-- Every arm of `exec` is the chunk's effect on the selected decoder. -/
theorem exec_eq (i : Instr) (s : State) : exec i s = s.onChunk fun d => d.chunkEffect s.params i := by
  cases i <;> rfl

/-- The pixel a chunk other than RUN gives (R172 to R177). -/
def Dec.chunkPixel (d : Dec) : Instr → Pixel
  | .rgb r g b => { r := r, g := g, b := b, a := d.pp.a }
  | .rgba r g b a => { r := r, g := g, b := b, a := a }
  | .run _ => d.pp
  | .index i => readSlot d.hist i
  | .diff dr dg db => diffPixel d.pp dr dg db
  | .luma dg drDg dbDg => lumaPixel d.pp dg drDg dbDg

/-- A chunk either repeats the previous pixel or takes one pixel. -/
theorem chunkEffect_cases (P : Params) (d : Dec) (i : Instr) :
    (∃ n, i = .run n ∧ d.chunkEffect P i = d.repeatPixel n) ∨
    d.chunkEffect P i = (d.takePixel P (d.chunkPixel i)).endChunk := by
  cases i
  case run n => exact .inl ⟨n, rfl, rfl⟩
  all_goals exact .inr rfl

end Sys2Proof.Machine
end

