-- ==== Sys2Proof/Laws/Fetch.lean ====
section
/-! SUPPORT. What reading a chunk's bytes comes to: the decoder's answer on the unread bytes. -/

namespace Sys2Proof.Machine

theorem unread_cons {d : Dec} {t : Byte} {bytes : List Byte} (h : d.unread = t :: bytes) :
    d.srcByte d.inpos.toNat = some t ∧ bytes = d.src.drop (d.inpos.toNat + 1) ∧
    d.src.length = d.inpos.toNat + 1 + bytes.length := by
  have hl : d.inpos.toNat < d.src.length := by
    by_contra hc
    simp [Dec.unread, List.drop_eq_nil_of_le (Nat.le_of_not_lt hc)] at h
  unfold Dec.unread at h
  rw [List.drop_eq_getElem_cons hl] at h
  cases h
  exact ⟨List.getElem?_eq_getElem hl, rfl, by simp; omega⟩

/-- The unread bytes decode: the fetch gives the chunk, and D.INPOS is past its bytes (R39, R170). -/
theorem fetch_got {d : Dec} {i : Instr} {rest : List Byte} (hs : d.src.length < 2 ^ 64)
    (h : decode d.unread = .ok (i, rest)) :
    d.fetch = .got i { d with inpos := d.inpos + BitVec.ofNat 64 i.length } := by
  rcases hu : d.unread with _ | ⟨t, bytes⟩
  · rw [hu] at h; cases h
  obtain ⟨hb, hbs, hlen⟩ := unread_cons hu
  rw [hu] at h
  obtain ⟨hi, hc, hd⟩ := decode_took h
  have hp := instr_length_pos i
  have h1 : (d.inpos + 1).toNat = d.inpos.toNat + 1 := inpos_add (n := 1) hs (by omega)
  have he : d.inpos + 1 + BitVec.ofNat 64 (chunkLen t - 1) = d.inpos + BitVec.ofNat 64 i.length := by
    rw [BitVec.add_assoc, hi, show chunkLen t = 1 + (chunkLen t - 1) by omega, BitVec.ofNat_add]; simp
  simp only [Dec.fetch, inByte_some hb, Read.bind]
  rw [inBytes_got (by exact hs) (by simp only [h1]; omega)]
  simp only [Dec.unread, h1, ← hbs, hd, he]

/-- The unread bytes end inside a chunk: the fetch fails TRUNCATED, and D.INPOS is at the end of `src` (R214). -/
theorem fetch_failed {d : Dec} (hs : d.src.length < 2 ^ 64) (hp : d.inpos.toNat ≤ d.src.length)
    (h : decode d.unread = .error .truncated) :
    d.fetch = .failed .truncated { d with inpos := BitVec.ofNat 64 d.src.length } := by
  rcases hu : d.unread with _ | ⟨t, bytes⟩
  · have hl : d.src.length ≤ d.inpos.toNat := by simpa [Dec.unread] using hu
    have he : d.inpos.toNat = d.src.length := by omega
    have hb : d.srcByte d.inpos.toNat = none := List.getElem?_eq_none (by omega)
    simp only [Dec.fetch, inByte_none hb, Read.bind, ← he, BitVec.ofNat_toNat, BitVec.setWidth_eq]
  obtain ⟨hb, hbs, hlen⟩ := unread_cons hu
  rw [hu] at h
  have hc : bytes.length + 1 < chunkLen t := by
    by_contra hc
    obtain ⟨i, rest, he⟩ := decode_complete (t := t) (bytes := bytes) (by omega)
    rw [he] at h; cases h
  have h1 : (d.inpos + 1).toNat = d.inpos.toNat + 1 := inpos_add (n := 1) hs (by omega)
  simp only [Dec.fetch, inByte_some hb, Read.bind]
  rw [inBytes_failed (by exact hs) (by simp only [h1]; omega) (by simp only [h1]; omega)]

end Sys2Proof.Machine
end

