-- ==== Sys2Proof/Laws/Chunks.lean ====
section
/-! SUPPORT. The two effects a chunk can have on a decoder, each in one record update, and reads from a stream whose
next bytes are known. -/

namespace Sys2Proof.Machine

theorem left_sub_one_eq_zero (l : BitVec 64) : l - 1 = 0 ↔ l = 1 := by
  constructor <;> intro h <;> bv_omega

/-- One pixel taken (R178, R180). -/
theorem takePixel_endChunk (P : Params) (d : Dec) (px : Pixel) (hp : d.phase = .chunks) :
    (d.takePixel P px).endChunk = { d with
      output := d.output ++ [px], hist := writeSlot d.hist (pHash P px) px, pp := px
      left := d.left - 1
      phase := if d.left = 1 then .trailer else .chunks } := by
  unfold Dec.endChunk Dec.takePixel
  simp only [left_sub_one_eq_zero]
  split <;> simp [*]

/-- A run (R174, R180). -/
theorem repeatPixel_eq (d : Dec) (n : Nat) (hp : d.phase = .chunks) :
    d.repeatPixel n = { d with
      output := d.output ++ List.replicate (min n d.left.toNat) d.pp
      left := BitVec.ofNat 64 (d.left.toNat - n)
      phase := if d.left.toNat ≤ n then .trailer else .chunks } := by
  have h1 : d.left - BitVec.ofNat 64 (min n d.left.toNat) = BitVec.ofNat 64 (d.left.toNat - n) := by
    apply BitVec.eq_of_toNat_eq
    have := d.left.isLt
    simp only [BitVec.toNat_sub, BitVec.toNat_ofNat]
    rcases Nat.le_total n d.left.toNat with h | h
    · rw [Nat.min_eq_left h]; omega
    · rw [Nat.min_eq_right h]; omega
  have h2 : BitVec.ofNat 64 (d.left.toNat - n) = 0 ↔ d.left.toNat ≤ n := by
    have := d.left.isLt
    rw [← BitVec.toNat_inj]
    simp only [BitVec.toNat_ofNat]
    simp
    omega
  unfold Dec.repeatPixel Dec.endChunk Dec.runPixels
  simp only [h1, h2]
  split <;> simp [*]

/-- The unread bytes begin with `a`: `a` is inside `src`, and what follows it is unread after it. -/
theorem unread_append {d : Dec} {a b : List Byte} (hs : d.src.length < 2 ^ 64) (h : d.unread = a ++ b) (ha : a ≠ []) :
    d.inpos.toNat + a.length ≤ d.src.length ∧
    ({ d with inpos := d.inpos + BitVec.ofNat 64 a.length } : Dec).unread = b := by
  have hl : d.unread.length = a.length + b.length := by rw [h]; simp
  have ha' : 0 < a.length := List.length_pos_iff.mpr ha
  simp only [Dec.unread, List.length_drop] at hl
  have hle : d.inpos.toNat + a.length ≤ d.src.length := by omega
  refine ⟨hle, ?_⟩
  have hi := inpos_add hs hle
  simp only [Dec.unread, hi]
  rw [← List.drop_drop]
  change List.drop _ d.unread = b
  rw [h]
  simp

/-- Reading as many bytes as `a` has gives `a`. -/
theorem inBytes_append {d : Dec} {a b : List Byte} (hs : d.src.length < 2 ^ 64) (h : d.unread = a ++ b) :
    d.inBytes a.length = .got a { d with inpos := d.inpos + BitVec.ofNat 64 a.length } := by
  by_cases ha : a = []
  · subst ha; simp [Dec.inBytes]
  · obtain ⟨hle, _⟩ := unread_append hs h ha
    rw [inBytes_got hs hle, h]
    simp

theorem inByte_cons {d : Dec} {a : Byte} {b : List Byte} (h : d.unread = a :: b) :
    d.inByte = .got a { d with inpos := d.inpos + 1 } := inByte_some (unread_cons h).1

end Sys2Proof.Machine
end

