-- ==== Sys2Proof/Laws/Encoder.lean ====
section
/-! SUPPORT. What the parts of an `EncPixel` step come to: the run counter, the flush, the differences and the
selection. -/

namespace Sys2Proof.Machine

/-! ## Numbers -/

/-- `s8` is in range and congruent modulo 256 (R12). -/
theorem s8_spec (v : Int) : -128 ≤ s8 v ∧ s8 v ≤ 127 ∧ (s8 v - v) % 256 = 0 := by
  unfold s8; split <;> omega

/-- A channel plus a difference is the sum modulo 256 (R94). -/
theorem addChannel_toNat (c : Byte) (v : Int) : ((addChannel c v).toNat : Int) = (c.toNat + v) % 256 := by
  simp only [addChannel, wrap8, BitVec.toNat_ofInt]
  omega

/-- A difference, under either setting, is congruent to the plain one modulo 256 (R133). -/
theorem deltaOf_mod (m : DeltaArith) (v : Int) : (deltaOf m v - v) % 256 = 0 := by
  cases m
  · exact (s8_spec v).2.2
  · simp [deltaOf]

/-- A difference congruent to the plain one, added to the old channel, gives the new channel. -/
theorem addChannel_of_mod (x y : Byte) (v : Int) (h : (v - ((x.toNat : Int) - y.toNat)) % 256 = 0) :
    addChannel y v = x := by
  have := addChannel_toNat y v
  have hx := x.isLt
  apply BitVec.eq_of_toNat_eq
  omega

theorem addChannel_dr (m : DeltaArith) (p pp : Pixel) : addChannel pp.r (deltas m p pp).dr = p.r :=
  addChannel_of_mod _ _ _ (deltaOf_mod _ _)
theorem addChannel_dg (m : DeltaArith) (p pp : Pixel) : addChannel pp.g (deltas m p pp).dg = p.g :=
  addChannel_of_mod _ _ _ (deltaOf_mod _ _)
theorem addChannel_db (m : DeltaArith) (p pp : Pixel) : addChannel pp.b (deltas m p pp).db = p.b :=
  addChannel_of_mod _ _ _ (deltaOf_mod _ _)

/-! ## The run counter -/

/-- Run continuation, by the value of the counter (R132). -/
theorem continueRun_eq (e : Enc) :
    e.continueRun =
      if e.run = 0 then { e with run := 2 }
      else if e.run = 63 then { e with run := 2, output := e.output ++ [0xFD], outpos := e.outpos + 1 }
      else { e with run := e.run + 1 } := by
  by_cases h0 : e.run = 0
  · simp only [Enc.continueRun, h0, if_true]; rfl
  by_cases h1 : e.run = 63
  · simp only [Enc.continueRun, h1, emit_eq]; rfl
  have hb : e.run + 1 ≠ 64 := by bv_omega
  simp only [Enc.continueRun, h0, h1, hb, if_false]

/-- The bytes of a pending run: none, or the one byte of R134. -/
def Enc.pendingBytes (e : Enc) : List Byte := if e.run = 0 then [] else [0xC0 ||| (e.run - 2).setWidth 8]

theorem pendingBytes_length_le (e : Enc) : e.pendingBytes.length ≤ 1 := by
  unfold Enc.pendingBytes; split <;> simp

/-- The flush of R134 in one record update. -/
theorem flushRun_eq (e : Enc) (h : e.run = 0 ∨ 2 ≤ e.run) :
    e.flushRun = { e with
      run := 0, output := e.output ++ e.pendingBytes
      outpos := e.outpos + BitVec.ofNat 64 e.pendingBytes.length } := by
  rcases h with h | h
  · have hn : ¬ (2 : BitVec 7) ≤ e.run := by rw [h]; decide
    have hb : e.pendingBytes = [] := if_pos h
    rw [hb, Enc.flushRun, if_neg hn]
    obtain ⟨⟩ := e
    simp only at h
    subst h
    simp
  · have ha : e.run ≠ 0 := by
      intro hc
      rw [hc] at h
      exact absurd h (by decide)
    have hb : encode e.pendingRun = e.pendingBytes := by
      rw [Enc.pendingBytes, if_neg ha]
      simp only [Enc.pendingRun, encode]
      congr 2
      apply BitVec.eq_of_toNat_eq
      simp only [BitVec.toNat_setWidth, BitVec.toNat_ofNat]
      bv_omega
    rw [Enc.flushRun, if_pos h, emit_eq, hb]

theorem flushRun_hist (e : Enc) : e.flushRun.hist = e.hist := by
  unfold Enc.flushRun; split
  · simp [emit_eq]
  · rfl

theorem flushRun_output_prefix (e : Enc) : e.output <+: e.flushRun.output := by
  unfold Enc.flushRun; split
  · simp [emit_eq]
  · exact List.prefix_rfl

/-- The other branch of R130 in one record update. -/
theorem newPixel_eq (P : Params) (p : Pixel) (e : Enc) (h : e.run = 0 ∨ 2 ≤ e.run) :
    e.newPixel P p = { e with
      run := 0, output := e.output ++ (e.pendingBytes ++ encode (selectChunk P e.hist e.pp p))
      outpos := e.outpos + BitVec.ofNat 64 (e.pendingBytes ++ encode (selectChunk P e.hist e.pp p)).length
      hist := writeSlot e.hist (pHash P p) p, pp := p } := by
  simp only [Enc.newPixel, flushRun_eq e h, emit_eq, List.append_assoc, List.length_append, BitVec.ofNat_add,
    BitVec.add_assoc]

/-! ## The selection -/

theorem fitsDiff_iff {p pp : Pixel} {d : Deltas} :
    fitsDiff p pp d = true ↔
      (p.a = pp.a ∧ (-2 ≤ d.dr ∧ d.dr ≤ 1) ∧ (-2 ≤ d.dg ∧ d.dg ≤ 1) ∧ (-2 ≤ d.db ∧ d.db ≤ 1)) := by
  simp only [fitsDiff, Bool.and_eq_true, inRange_iff, decide_eq_true_eq, and_assoc]

theorem fitsLuma_iff {p pp : Pixel} {d : Deltas} :
    fitsLuma p pp d = true ↔
      (p.a = pp.a ∧ (-32 ≤ d.dg ∧ d.dg ≤ 31) ∧ (-8 ≤ d.drDg ∧ d.drDg ≤ 7) ∧ (-8 ≤ d.dbDg ∧ d.dbDg ≤ 7)) := by
  simp only [fitsLuma, Bool.and_eq_true, inRange_iff, decide_eq_true_eq, and_assoc]

/-- Where LUMA fits, no wrap is left in its relative differences (R133). -/
theorem fitsLuma_exact (m : DeltaArith) (p pp : Pixel) (h : fitsLuma p pp (deltas m p pp) = true) :
    (deltas m p pp).dr = (deltas m p pp).drDg + (deltas m p pp).dg ∧
    (deltas m p pp).db = (deltas m p pp).dbDg + (deltas m p pp).dg := by
  rw [fitsLuma_iff] at h
  obtain ⟨-, hg, hr, hb⟩ := h
  cases m with
  | exact => simp only [deltas, deltaOf] at *; omega
  | wrap8 =>
    have a := s8_spec ((p.r.toNat : Int) - pp.r.toNat)
    have b := s8_spec ((p.b.toNat : Int) - pp.b.toNat)
    have c := s8_spec ((deltas .wrap8 p pp).dr - (deltas .wrap8 p pp).dg)
    have e := s8_spec ((deltas .wrap8 p pp).db - (deltas .wrap8 p pp).dg)
    simp only [deltas, deltaOf] at *
    omega

/-- The five ways a chunk is selected, each with the condition it was selected under. -/
theorem selectChunk_cases (P : Params) (h : History) (pp p : Pixel) :
    (readSlot h (pHash P p) = p ∧ selectChunk P h pp p = .index (pHash P p)) ∨
    (fitsDiff p pp (deltas P.deltaArith p pp) = true ∧
      selectChunk P h pp p =
        .diff (deltas P.deltaArith p pp).dr (deltas P.deltaArith p pp).dg (deltas P.deltaArith p pp).db) ∨
    (fitsDiff p pp (deltas P.deltaArith p pp) = false ∧ fitsLuma p pp (deltas P.deltaArith p pp) = true ∧
      selectChunk P h pp p =
        .luma (deltas P.deltaArith p pp).dg (deltas P.deltaArith p pp).drDg (deltas P.deltaArith p pp).dbDg) ∨
    (p.a ≠ pp.a ∧ selectChunk P h pp p = .rgba p.r p.g p.b p.a) ∨
    (p.a = pp.a ∧ selectChunk P h pp p = .rgb p.r p.g p.b) := by
  unfold selectChunk
  simp only
  split
  · exact .inl ⟨‹_›, rfl⟩
  split
  · exact .inr (.inl ⟨‹_›, rfl⟩)
  split
  · exact .inr (.inr (.inl ⟨by simp_all, ‹_›, rfl⟩))
  split
  · exact .inr (.inr (.inr (.inl ⟨‹_›, rfl⟩)))
  · exact .inr (.inr (.inr (.inr ⟨by simp_all, rfl⟩)))

end Sys2Proof.Machine
end

