-- ==== Sys2Proof/Laws/Reads.lean ====
section
/-! SUPPORT. What a stretch of reads can change: D.INPOS, forwards and not past the end of `src`, and nothing else;
and what the header, the trailer and a chunk's fetch therefore come to. -/

namespace Sys2Proof.Machine

/-- From `d`, the position `p` is not behind and not past the end of `src` (R38). -/
def Forward (d : Dec) (p : BitVec 64) : Prop :=
  d.src.length < 2 ^ 64 → d.inpos.toNat ≤ d.src.length → d.inpos.toNat ≤ p.toNat ∧ p.toNat ≤ d.src.length

theorem Forward.refl (d : Dec) : Forward d d.inpos := fun _ h => ⟨le_refl _, h⟩

theorem Forward.trans {d : Dec} {p q : BitVec 64} (h : Forward d p) (h' : Forward { d with inpos := p } q) :
    Forward d q := fun a b =>
  let ⟨x, y⟩ := h a b
  let ⟨z, w⟩ := h' a y
  ⟨le_trans x z, w⟩

theorem inByte_forward (d : Dec) :
    (∃ b, d.inByte = .got b { d with inpos := d.inpos + 1 } ∧ Forward d (d.inpos + 1)) ∨
    d.inByte = .failed .truncated d := by
  unfold Dec.inByte; split
  · rename_i b h
    refine .inl ⟨_, rfl, fun hs hp => ?_⟩
    obtain ⟨hlt, _⟩ := List.getElem?_eq_some_iff.mp h
    rw [show d.inpos + 1 = d.inpos + BitVec.ofNat 64 1 from rfl, inpos_add hs (by omega)]
    omega
  · exact .inr rfl

theorem inBytes_forward (n : Nat) (d : Dec) :
    (∃ bs, d.inBytes n = .got bs { d with inpos := d.inpos + BitVec.ofNat 64 n } ∧
      Forward d (d.inpos + BitVec.ofNat 64 n)) ∨
    ∃ p, d.inBytes n = .failed .truncated { d with inpos := p } ∧ Forward d p := by
  induction n generalizing d with
  | zero => left; exact ⟨[], by simp [Dec.inBytes], by simpa using Forward.refl d⟩
  | succ n ih =>
    rcases inByte_forward d with ⟨b, h, f⟩ | h
    · have e : d.inpos + BitVec.ofNat 64 (n + 1) = d.inpos + 1 + BitVec.ofNat 64 n := by
        rw [Nat.add_comm n 1, BitVec.ofNat_add, BitVec.add_assoc]; rfl
      rw [e]
      rcases ih { d with inpos := d.inpos + 1 } with ⟨bs, h', f'⟩ | ⟨p, h', f'⟩
      · left; exact ⟨b :: bs, by simp only [Dec.inBytes, h, Read.bind, h'], f.trans f'⟩
      · right; exact ⟨p, by simp only [Dec.inBytes, h, Read.bind, h'], f.trans f'⟩
    · right; exact ⟨d.inpos, by simp only [Dec.inBytes, h, Read.bind], .refl d⟩

theorem inBE32_forward (d : Dec) :
    (∃ v, d.inBE32 = .got v { d with inpos := d.inpos + 4 } ∧ Forward d (d.inpos + 4)) ∨
    ∃ p, d.inBE32 = .failed .truncated { d with inpos := p } ∧ Forward d p := by
  rw [inBE32_eq]
  rcases inBytes_forward 4 d with ⟨b, h, f⟩ | ⟨p, h, f⟩
  · rw [h]; simp only [Read.bind]
    split
    · exact .inl ⟨_, rfl, f⟩
    · exact .inr ⟨_, rfl, f⟩
  · rw [h]; exact .inr ⟨p, rfl, f⟩

/-- A chunk's fetch gives a chunk or fails TRUNCATED, and moves D.INPOS only (R170). -/
theorem fetch_forward (d : Dec) :
    (∃ i p, d.fetch = .got i { d with inpos := p } ∧ Forward d p) ∨
    ∃ p, d.fetch = .failed .truncated { d with inpos := p } ∧ Forward d p := by
  unfold Dec.fetch
  rcases inByte_forward d with ⟨b, h, f⟩ | h
  · rw [h]; simp only [Read.bind]
    rcases inBytes_forward (chunkLen b - 1) { d with inpos := d.inpos + 1 } with ⟨bs, h', f'⟩ | ⟨p, h', f'⟩
    · rw [h']; simp only []
      split
      · exact .inl ⟨_, _, rfl, f.trans f'⟩
      · exact .inr ⟨_, rfl, f.trans f'⟩
    · rw [h']; exact .inr ⟨_, rfl, f.trans f'⟩
  · rw [h]; exact .inr ⟨d.inpos, rfl, .refl d⟩

/-- The header step accepts and writes the header's registers, or fails with everything else as it was (R117). -/
theorem header_cases (d : Dec) :
    (∃ w h ch cs p, d.header = { d with
        width := w, height := h, channels := ch, colorspace := cs, left := pixelCount w h
        status := statusHeaderAccepted d.status, inpos := p
        phase := if pixelCount w h = 0 then .trailer else .chunks } ∧ Forward d p) ∨
    ∃ c p, (c = .badMagic ∨ c = .truncated) ∧ d.header = ({ d with inpos := p } : Dec).fail c ∧ Forward d p := by
  unfold Dec.header
  rcases inBytes_forward 4 d with ⟨m, h, f⟩ | ⟨p, h, f⟩ <;> rw [h] <;> simp only [Read.bind]
  swap
  · exact .inr ⟨_, p, .inr rfl, rfl, f⟩
  split
  swap
  · exact .inr ⟨_, _, .inl rfl, rfl, f⟩
  rcases inBE32_forward { d with inpos := d.inpos + 4#64 } with ⟨w, h, f1⟩ | ⟨p, h, f1⟩ <;> rw [h] <;> simp only []
  swap
  · exact .inr ⟨_, p, .inr rfl, rfl, f.trans f1⟩
  rcases inBE32_forward { d with inpos := d.inpos + 4#64 + 4 } with ⟨w, h, f2⟩ | ⟨p, h, f2⟩ <;> rw [h] <;> simp only []
  swap
  · exact .inr ⟨_, p, .inr rfl, rfl, (f.trans f1).trans f2⟩
  rcases inByte_forward { d with inpos := d.inpos + 4#64 + 4 + 4 } with ⟨w, h, f3⟩ | h <;> rw [h] <;> simp only []
  swap
  · exact .inr ⟨_, _, .inr rfl, rfl, (f.trans f1).trans f2⟩
  rcases inByte_forward { d with inpos := d.inpos + 4#64 + 4 + 4 + 1 } with ⟨w, h, f4⟩ | h <;> rw [h] <;>
    simp only [Read.settle]
  · exact .inl ⟨_, _, _, _, _, rfl, (((f.trans f1).trans f2).trans f3).trans f4⟩
  · exact .inr ⟨_, _, .inr rfl, rfl, ((f.trans f1).trans f2).trans f3⟩

/-- The trailer step ends the job, with success, BAD_TRAILER or TRUNCATED (R121). -/
theorem trailer_cases (d : Dec) :
    (∃ p st, (st = statusEnd true .none d.status ∨ st = statusEnd false .badTrailer d.status) ∧
      d.trailer = { d with status := st, inpos := p, phase := .done } ∧ Forward d p) ∨
    ∃ p, d.trailer = ({ d with inpos := p } : Dec).fail .truncated ∧ Forward d p := by
  unfold Dec.trailer
  rcases inBytes_forward 8 d with ⟨m, h, f⟩ | ⟨p, h, f⟩ <;> rw [h] <;> simp only [Read.bind, Read.settle]
  · left; refine ⟨_, _, ?_, rfl, f⟩; split <;> simp
  · exact .inr ⟨p, rfl, f⟩

end Sys2Proof.Machine
end

