-- ==== Sys2Proof/Laws/Step.lean ====
section
/-! SUPPORT. Everything one step of the block can do to an engine, said once: later proofs take these cases and never
unfold `step`. -/

namespace Sys2Proof.Machine

/-- Everything a step can do to an encoder. -/
inductive EncChange (P : Params) (e : Enc) : Enc → Prop
  | same : EncChange P e e
  | start (w h ch cs) : (e.phase = .idle ∨ e.phase = .done) → EncChange P e (e.start w h ch cs)
  | input (ps) : EncChange P e { e with input := e.input ++ ps }
  | abort : EncChange P e e.abort
  | pixel (q qs) : e.phase = .pixels → e.input = q :: qs →
      (Enc.pixel P q { e with input := qs }).output.length < 2 ^ 64 →
      EncChange P e (Enc.pixel P q { e with input := qs })
  | finish : e.phase = .finish → e.finish.output.length < 2 ^ 64 → EncChange P e e.finish
  | reset (pp h r) : EncChange P e (Enc.afterReset pp h r)

/-- Everything a step can do to a decoder. -/
inductive DecChange (P : Params) (d : Dec) : Dec → Prop
  | same : DecChange P d d
  | start (src) : (d.phase = .idle ∨ d.phase = .done) → src.length < 2 ^ 64 → DecChange P d (d.start src)
  | abort : DecChange P d d.abort
  | header : d.phase = .header → DecChange P d d.header
  | trailer : d.phase = .trailer → DecChange P d d.trailer
  | chunk (i d') : d.phase = .chunks → d.fetch = .got i d' → d'.phase = .chunks → DecChange P d (d'.chunkEffect P i)
  | chunkFail (c d') : d.phase = .chunks → d.fetch = .failed c d' → DecChange P d (d'.fail c)
  | reset (pp h) : DecChange P d (Dec.afterReset pp h)

theorem list_set_self {α : Type} {l : List α} {k : Nat} {a : α} (h : l[k]? = some a) : l = l.set k a := by
  have ⟨hk, he⟩ := List.getElem?_eq_some_iff.mp h
  rw [← he, List.set_getElem_self]

/-- An encoder's own step changes that encoder by one of the cases, and nothing else of the block. -/
theorem tickEnc_cases {s t : State} {k : Nat} (h : tickEnc k s = .next t) :
    ∃ e e', s.encs[k]? = some e ∧ EncChange s.params e e' ∧
      t.params = s.params ∧ t.decs = s.decs ∧ t.encs = s.encs.set k e' := by
  unfold tickEnc at h
  split at h
  · cases h
  rename_i e he
  split at h
  · cases h; exact ⟨e, e, he, .same, rfl, rfl, list_set_self he⟩
  · cases h; exact ⟨e, e, he, .same, rfl, rfl, list_set_self he⟩
  · cases h; exact ⟨e, e, he, .same, rfl, rfl, list_set_self he⟩
  · obtain ⟨hl, rfl⟩ := putEnc_next h
    exact ⟨e, _, he, .pixel _ _ ‹_› ‹_› hl, rfl, rfl, rfl⟩
  · obtain ⟨hl, rfl⟩ := putEnc_next h
    exact ⟨e, _, he, .finish ‹_› hl, rfl, rfl, rfl⟩

/-- A decoder's own step changes that decoder by one of the cases, and nothing else of the block. -/
theorem tickDec_cases {s t : State} {k : Nat} (h : tickDec k s = .next t) :
    ∃ d d', s.decs[k]? = some d ∧ DecChange s.params d d' ∧
      t.params = s.params ∧ t.encs = s.encs ∧ t.decs = s.decs.set k d' := by
  unfold tickDec at h
  split at h
  · cases h
  rename_i d hd
  split at h
  · cases h; exact ⟨d, d, hd, .same, rfl, rfl, list_set_self hd⟩
  · cases h; exact ⟨d, _, hd, .header ‹_›, rfl, rfl, rfl⟩
  · unfold decChunk at h
    split at h
    · rename_i hp _ i d' hf
      rw [exec_eq] at h
      obtain ⟨d'', hd'', hp'', rfl⟩ := onChunk_next h
      have e : d'' = d' := by
        simp only at hd''
        rw [setDec_get_same hd] at hd''
        exact (Option.some.inj hd'').symm
      subst e
      refine ⟨d, _, hd, .chunk i d'' hp hf hp'', rfl, rfl, ?_⟩
      simp [State.setDec]
    · cases h
      exact ⟨d, _, hd, .chunkFail _ _ ‹_› ‹_›, rfl, rfl, rfl⟩
  · cases h; exact ⟨d, _, hd, .trailer ‹_›, rfl, rfl, rfl⟩
  · cases h; exact ⟨d, d, hd, .same, rfl, rfl, list_set_self hd⟩

/-- Every engine of `t` is an engine of `s`, changed by one of the cases. -/
structure Changes (s t : State) : Prop where
  params : t.params = s.params
  encs : ∀ e' ∈ t.encs, ∃ e ∈ s.encs, EncChange s.params e e'
  decs : ∀ d' ∈ t.decs, ∃ d ∈ s.decs, DecChange s.params d d'

theorem Changes.none {s t : State} (h1 : t.params = s.params) (h2 : t.encs = s.encs) (h3 : t.decs = s.decs) :
    Changes s t :=
  ⟨h1, fun x hx => ⟨x, h2 ▸ hx, .same⟩, fun x hx => ⟨x, h3 ▸ hx, .same⟩⟩

theorem Changes.enc {s t : State} {k : Nat} {e e' : Enc} (hk : s.encs[k]? = some e) (h : EncChange s.params e e')
    (h1 : t.params = s.params) (h2 : t.decs = s.decs) (h3 : t.encs = s.encs.set k e') : Changes s t := by
  refine ⟨h1, fun x hx => ?_, fun x hx => ⟨x, h2 ▸ hx, .same⟩⟩
  rw [h3] at hx
  rcases List.mem_or_eq_of_mem_set hx with hm | rfl
  · exact ⟨x, hm, .same⟩
  · exact ⟨e, List.mem_of_getElem? hk, h⟩

theorem Changes.dec {s t : State} {k : Nat} {d d' : Dec} (hk : s.decs[k]? = some d) (h : DecChange s.params d d')
    (h1 : t.params = s.params) (h2 : t.encs = s.encs) (h3 : t.decs = s.decs.set k d') : Changes s t := by
  refine ⟨h1, fun x hx => ⟨x, h2 ▸ hx, .same⟩, fun x hx => ?_⟩
  rw [h3] at hx
  rcases List.mem_or_eq_of_mem_set hx with hm | rfl
  · exact ⟨x, hm, .same⟩
  · exact ⟨d, List.mem_of_getElem? hk, h⟩

/-- A HOST command. -/
theorem hostCmd_changes {s t : State} {c : HostCmd} (h : hostCmd c s = .next t) : Changes s t := by
  cases c with
  | encStart k w h' ch cs =>
    simp only [hostCmd, encStartCmd] at h
    split at h
    · cases h
    rename_i e he
    split at h
    · obtain ⟨hl, rfl⟩ := putEnc_next h; exact .enc he (.start w h' ch cs (.inl ‹_›)) rfl rfl rfl
    · obtain ⟨hl, rfl⟩ := putEnc_next h; exact .enc he (.start w h' ch cs (.inr ‹_›)) rfl rfl rfl
    · cases h
    · cases h
  | encPixels k ps =>
    simp only [hostCmd, encPixelsCmd] at h
    split at h <;> cases h
    exact .enc ‹_› (.input ps) rfl rfl rfl
  | encAbort k =>
    simp only [hostCmd, encAbortCmd] at h
    split at h <;> cases h
    exact .enc ‹_› .abort rfl rfl rfl
  | decAbort k =>
    simp only [hostCmd, decAbortCmd] at h
    split at h <;> cases h
    exact .dec ‹_› .abort rfl rfl rfl
  | read r =>
    simp only [hostCmd, readCmd] at h
    split at h <;> cases h
    exact .none rfl rfl rfl
  | decStart k src =>
    simp only [hostCmd, decStartCmd] at h
    split at h
    · cases h
    rename_i e he
    split at h
    · split at h <;> cases h
      exact .dec he (.start src (.inl ‹_›) ‹_›) rfl rfl rfl
    · split at h <;> cases h
      exact .dec he (.start src (.inr ‹_›) ‹_›) rfl rfl rfl
    all_goals cases h

/-- An engine's own step. -/
theorem tick_changes {s t : State} {e : EngineId} (h : tick e s = .next t) : Changes s t := by
  cases e with
  | enc k => obtain ⟨a, b, h1, h2, h3, h4, h5⟩ := tickEnc_cases h; exact .enc h1 h2 h3 h4 h5
  | dec k => obtain ⟨a, b, h1, h2, h3, h4, h5⟩ := tickDec_cases h; exact .dec h1 h2 h3 h4 h5

/-- Hardware reset. -/
theorem hardReset_changes (s : State) : Changes s s.hardReset := by
  refine ⟨rfl, fun e he => ?_, fun d hd => ?_⟩
  · simp only [State.hardReset, List.mem_mapIdx] at he
    obtain ⟨i, hi, rfl⟩ := he
    exact ⟨_, List.getElem_mem hi, .reset _ _ _⟩
  · simp only [State.hardReset, List.mem_mapIdx] at hd
    obtain ⟨i, hi, rfl⟩ := hd
    exact ⟨_, List.getElem_mem hi, .reset _ _⟩

/-- One step of the block. -/
theorem step_changes {s t : State} (h : step s = .next t) : Changes s t := by
  unfold step at h
  split at h
  · rename_i m more _
    have lift : ∀ u, Changes { s with agenda := more } u → Changes s u := fun u h => ⟨h.params, h.encs, h.decs⟩
    apply lift
    cases m with
    | cmd c => exact hostCmd_changes h
    | bus a d =>
      simp only [runMove, busAccess] at h
      split at h
      · cases h
      · exact hostCmd_changes h
    | tick e => exact tick_changes h
    | hardReset => cases h; exact hardReset_changes _
  · split at h
    · exact tick_changes h
    · cases h; exact .none rfl rfl rfl

end Sys2Proof.Machine
end

