-- ==== Sys2Proof/Laws/Engines.lean ====
section
/-! SUPPORT. The steps of one engine as a function of that engine alone, and what turns and agendas come to in terms of
it. -/

namespace Sys2Proof.Machine

/-- An encoder's own step as a function of the engine; none when its output would reach 2^64 bytes. -/
def Enc.own (P : Params) (e : Enc) : Option Enc :=
  match e.phase, e.input with
  | .idle, _ => some e
  | .done, _ => some e
  | .pixels, [] => some e
  | .pixels, q :: qs =>
    if (Enc.pixel P q { e with input := qs }).output.length < 2 ^ 64 then some (Enc.pixel P q { e with input := qs })
    else none
  | .finish, _ => if e.finish.output.length < 2 ^ 64 then some e.finish else none

/-- A decoder's own step as a function of the engine. -/
def Dec.own (P : Params) (d : Dec) : Dec :=
  match d.phase with
  | .idle => d
  | .header => d.header
  | .trailer => d.trailer
  | .done => d
  | .chunks =>
    match d.fetch with
    | .got i d => d.chunkEffect P i
    | .failed c d => d.fail c

/-- `n` own steps of an encoder. -/
def Enc.owns (P : Params) : Nat → Enc → Option Enc
  | 0, e => some e
  | n + 1, e =>
    match e.own P with
    | some e' => Enc.owns P n e'
    | none => none

theorem owns_add (P : Params) (m n : Nat) (e e' : Enc) (h : Enc.owns P m e = some e') :
    Enc.owns P (m + n) e = Enc.owns P n e' := by
  induction m generalizing e with
  | zero => simp only [Enc.owns] at h; cases h; simp
  | succ m ih =>
    rw [show m + 1 + n = (m + n) + 1 by omega]
    simp only [Enc.owns] at *
    split at h
    · exact ih _ h
    · cases h

theorem own_pixels {P : Params} {e : Enc} {q : Pixel} {qs : List Pixel} (hp : e.phase = .pixels)
    (hi : e.input = q :: qs) (hl : (Enc.pixel P q { e with input := qs }).output.length < 2 ^ 64) :
    e.own P = some (Enc.pixel P q { e with input := qs }) := by
  unfold Enc.own
  split
  · rename_i h; rw [hp] at h; cases h
  · rename_i h; rw [hp] at h; cases h
  · rename_i h; rw [hi] at h; cases h
  · rename_i h1 h2; rw [hi] at h2; cases h2; exact if_pos hl
  · rename_i h; rw [hp] at h; cases h

theorem own_chunk {P : Params} {d : Dec} {i : Instr} {rest : List Byte} (hp : d.phase = .chunks)
    (hs : d.src.length < 2 ^ 64) (h : decode d.unread = .ok (i, rest)) :
    d.own P = ({ d with inpos := d.inpos + BitVec.ofNat 64 (Instr.length i) } : Dec).chunkEffect P i := by
  simp only [Dec.own, fetch_got hs h]
  split <;> rename_i hq <;> rw [hp] at hq <;> cases hq

theorem own_done {P : Params} {d : Dec} (h : d.phase = .done) : d.own P = d := by simp [Dec.own, h]

/-- A turn of an encoder is its own step. -/
theorem tick_enc_eq {s : State} {k : Nat} {e : Enc} (h : s.encs[k]? = some e) :
    tick (.enc k) s =
      match e.own s.params with
      | some e' => .next (s.setEnc k e')
      | none => .refused .streamTooLong := by
  have hset : s.setEnc k e = s := by
    have := list_set_self h
    cases s
    simp only [State.setEnc] at *
    rw [← this]
  simp only [tick, tickEnc, h, Enc.own]
  split <;> simp_all [State.putEnc]
  all_goals split <;> rfl

/-- A chunk runs in CHUNKS. -/
theorem exec_chunks {s : State} {d : Dec} {i : Instr} (h : s.decs[s.sel]? = some d) (hp : d.phase = .chunks) :
    exec i s = .next (s.setDec s.sel (d.chunkEffect s.params i)) := by
  rw [exec_eq, onChunk_chunks _ h hp]

/-- A turn of a decoder is its own step. -/
theorem tick_dec_eq {s : State} {k : Nat} {d : Dec} (h : s.decs[k]? = some d) :
    ∃ t, tick (.dec k) s = .next t ∧ t.params = s.params ∧ t.encs = s.encs ∧
      t.decs = s.decs.set k (d.own s.params) ∧ t.agenda = s.agenda ∧ t.resets = s.resets := by
  simp only [tick, tickDec, h, Dec.own]
  cases hp : d.phase <;> simp only []
  · exact ⟨s, rfl, rfl, rfl, list_set_self h, rfl, rfl⟩
  · exact ⟨_, rfl, rfl, rfl, rfl, rfl, rfl⟩
  · unfold decChunk
    rcases fetch_forward d with ⟨i, p, h', f⟩ | ⟨p, h', f⟩ <;> rw [h'] <;> simp only []
    · have hx := exec_chunks (s := { s.setDec k { d with inpos := p } with sel := k }) (i := i) (setDec_get_same h) hp
      exact ⟨_, hx, rfl, rfl, by simp [State.setDec], rfl, rfl⟩
    · exact ⟨_, rfl, rfl, rfl, rfl, rfl, rfl⟩
  · exact ⟨_, rfl, rfl, rfl, rfl, rfl, rfl⟩
  · exact ⟨s, rfl, rfl, rfl, list_set_self h, rfl, rfl⟩

/-- Turns of one encoder, written first on the agenda, are its own steps; the rest of the block stays. -/
theorem steps_of_enc_turns (n : Nat) (s : State) (k : Nat) (e e' : Enc) (more : List Move) (he : s.encs[k]? = some e)
    (h : Enc.owns s.params n e = some e') (ha : s.agenda = List.replicate n (.tick (.enc k)) ++ more) :
    steps n s = .next { s.setEnc k e' with agenda := more } := by
  induction n generalizing s e with
  | zero =>
    simp only [Enc.owns] at h
    cases h
    have hs := list_set_self he
    cases s
    simp only [steps, State.setEnc] at *
    rw [← hs]
    simp only [List.replicate_zero, List.nil_append] at ha
    rw [ha]
  | succ n ih =>
    simp only [Enc.owns] at h
    split at h
    · rename_i e1 h1
      rw [List.replicate_succ, List.cons_append] at ha
      have hstep : step s =
          .next (({ s with agenda := List.replicate n (.tick (.enc k)) ++ more } : State).setEnc k e1) := by
        unfold step
        rw [ha]
        simp only [runMove]
        rw [tick_enc_eq (s := { s with agenda := List.replicate n (.tick (.enc k)) ++ more }) (e := e) he, h1]
      simp only [steps, hstep]
      rw [ih (({ s with agenda := List.replicate n (.tick (.enc k)) ++ more } : State).setEnc k e1) e1
        (setEnc_get_same he) h rfl]
      simp [State.setEnc]
    · cases h

/-- Turns of one decoder, written first on the agenda, are its own steps. -/
theorem steps_of_dec_turns (n : Nat) (s : State) (k : Nat) (d : Dec) (more : List Move) (hd : s.decs[k]? = some d)
    (ha : s.agenda = List.replicate n (.tick (.dec k)) ++ more) :
    ∃ t, steps n s = .next t ∧ t.decs[k]? = some ((Dec.own s.params)^[n] d) := by
  induction n generalizing s d with
  | zero => exact ⟨s, rfl, hd⟩
  | succ n ih =>
    obtain ⟨t, h1, h2, h3, h4, h5, _⟩ :=
      tick_dec_eq (s := { s with agenda := List.replicate n (.tick (.dec k)) ++ more }) hd
    have hstep : step s = .next t := by
      unfold step
      rw [ha, List.replicate_succ]
      exact h1
    have hk := (List.getElem?_eq_some_iff.mp hd).1
    obtain ⟨u, g1, g2⟩ := ih t (d.own s.params) (by rw [h4]; simp [hk]) h5
    refine ⟨u, by simp only [steps, hstep, g1], ?_⟩
    rw [g2, h2, Function.iterate_succ_apply]

/-- Turns of one decoder with nothing written down. -/
theorem ticks_dec_eq (n : Nat) (s : State) (k : Nat) (d : Dec) (hd : s.decs[k]? = some d) :
    ∃ t, ticks (.dec k) n s = .next t ∧ t.decs[k]? = some ((Dec.own s.params)^[n] d) := by
  induction n generalizing s d with
  | zero => exact ⟨s, rfl, hd⟩
  | succ n ih =>
    obtain ⟨t, h1, h2, h3, h4, h5, _⟩ := tick_dec_eq hd
    have hk := (List.getElem?_eq_some_iff.mp hd).1
    obtain ⟨u, g1, g2⟩ := ih t (d.own s.params) (by rw [h4]; simp [hk])
    refine ⟨u, by simp only [ticks, h1, g1], ?_⟩
    rw [g2, h2, Function.iterate_succ_apply]

end Sys2Proof.Machine
end

