-- ==== Sys2Proof/Laws/Numbers.lean ====
section
/-! SUPPORT. The exact product, big-endian integers, and the fields of a status register that ends a job. -/

namespace Sys2Proof

/-- The pixel count is the exact product: no bit is lost (R30, R37). -/
theorem pixelCount_toNat (w h : BitVec 32) : (pixelCount w h).toNat = w.toNat * h.toNat := by
  have a := w.isLt
  have b := h.isLt
  have : w.toNat * h.toNat ≤ (2 ^ 32 - 1) * (2 ^ 32 - 1) := Nat.mul_le_mul (by omega) (by omega)
  simp only [pixelCount, BitVec.toNat_mul, BitVec.toNat_setWidth]
  rw [Nat.mod_eq_of_lt (a := w.toNat) (by omega), Nat.mod_eq_of_lt (a := h.toNat) (by omega),
    Nat.mod_eq_of_lt (by omega)]

/-- Reading back the four bytes of an integer gives the integer (R63, R65). -/
theorem be32_of_bytes (v : BitVec 32) :
    be32 (v.extractLsb' 24 8) (v.extractLsb' 16 8) (v.extractLsb' 8 8) (v.extractLsb' 0 8) = v := by
  unfold be32
  rw [BitVec.extractLsb'_append_extractLsb'_eq_extractLsb' (by rfl),
    BitVec.extractLsb'_append_extractLsb'_eq_extractLsb' (by rfl),
    BitVec.extractLsb'_append_extractLsb'_eq_extractLsb' (by rfl)]
  simp

namespace Machine

/-- The fields of a status register that ends a job: HDR as it was (R44, R211). -/
theorem statusEnd_fields : ∀ (st : Byte) (c : ErrCode) (ok : Bool),
    statusBusy (statusEnd ok c st) = false ∧ statusDone (statusEnd ok c st) = true ∧
    statusOk (statusEnd ok c st) = ok ∧ statusErr (statusEnd ok c st) = c.code ∧
    statusHdr (statusEnd ok c st) = statusHdr st := by
  intro st c ok
  revert st
  cases ok <;> cases c <;> decide

end Machine

end Sys2Proof
end

