-- ==== Sys2Proof/Laws/Jobs.lean ====
section
/-! SUPPORT. What a sequence of chunks plays out to, apart from any engine, and how far a job's encoder has come in such
a sequence. -/

namespace Sys2Proof.Machine

/-- The pixel a chunk other than RUN gives, from the previous pixel and the history cache (R172 to R177). -/
def chunkPixelOf (pp : Pixel) (h : History) : Instr → Pixel
  | .rgb r g b => { r := r, g := g, b := b, a := pp.a }
  | .rgba r g b a => { r := r, g := g, b := b, a := a }
  | .run _ => pp
  | .index i => readSlot h i
  | .diff dr dg db => diffPixel pp dr dg db
  | .luma dg drDg dbDg => lumaPixel pp dg drDg dbDg

theorem chunkPixel_eq (d : Dec) (i : Instr) : d.chunkPixel i = chunkPixelOf d.pp d.hist i := by cases i <;> rfl

/-- A chunk other than RUN, as an effect on the decoder. -/
theorem chunkEffect_pixel (P : Params) (d : Dec) (i : Instr) (h : isPixelChunk i = true) :
    d.chunkEffect P i = (d.takePixel P (chunkPixelOf d.pp d.hist i)).endChunk := by
  cases i <;> first | rfl | cases h

/-- From a previous pixel and a cache, these chunks give these pixels, and leave this previous pixel and cache (R170,
with pixels enough left); every chunk other than RUN changes the previous pixel, as every chunk of an encoder does
(R142). -/
inductive Plays (P : Params) : Pixel → History → List Instr → List Pixel → Pixel → History → Prop
  | nil (pp h) : Plays P pp h [] [] pp h
  | run {pp h is out pp' h'} (n) :
      Plays P pp h is out pp' h' → Plays P pp h (.run n :: is) (List.replicate n pp ++ out) pp' h'
  | pixel {pp h is out pp' h'} (i) :
      isPixelChunk i = true → chunkPixelOf pp h i ≠ pp →
      Plays P (chunkPixelOf pp h i) (writeSlot h (pHash P (chunkPixelOf pp h i)) (chunkPixelOf pp h i)) is out pp' h' →
      Plays P pp h (i :: is) (chunkPixelOf pp h i :: out) pp' h'

theorem Plays.snoc_run {P : Params} {pp pp' : Pixel} {h h' : History} {is : List Instr} {out : List Pixel} (n : Nat)
    (hp : Plays P pp h is out pp' h') :
    Plays P pp h (is ++ [.run n]) (out ++ List.replicate n pp') pp' h' := by
  induction hp with
  | nil pp h => simpa using Plays.run n (.nil (P := P) pp h)
  | run m _ ih => rw [List.append_assoc]; exact .run m ih
  | pixel i hi hn _ ih => exact .pixel i hi hn ih

theorem Plays.snoc_pixel {P : Params} {pp pp' : Pixel} {h h' : History} {is : List Instr} {out : List Pixel} (i : Instr)
    (hi : isPixelChunk i = true) (hn : chunkPixelOf pp' h' i ≠ pp') (hp : Plays P pp h is out pp' h') :
    Plays P pp h (is ++ [i]) (out ++ [chunkPixelOf pp' h' i]) (chunkPixelOf pp' h' i)
      (writeSlot h' (pHash P (chunkPixelOf pp' h' i)) (chunkPixelOf pp' h' i)) := by
  induction hp with
  | nil pp h => exact .pixel i hi hn (.nil _ _)
  | run m _ ih => rw [List.append_assoc]; exact .run m (ih hn)
  | pixel j hj hm _ ih => exact .pixel j hj hm (ih hn)

theorem Plays.length {P : Params} {pp pp' : Pixel} {h h' : History} {is : List Instr} {out : List Pixel}
    (hp : Plays P pp h is out pp' h') : out.length = (is.map chunkCount).sum := by
  induction hp with
  | nil => rfl
  | run m _ ih => simp [ih, chunkCount]
  | pixel i hi _ _ ih =>
    have hc : chunkCount i = 1 := by cases i <;> first | rfl | cases hi
    simp [ih, hc]
    omega

/-- The previous pixel and the cache after some pixels: a pixel equal to the previous one changes neither, another is
written at its slot and becomes the previous pixel (R54). -/
def follow (P : Params) : Pixel → History → List Pixel → Pixel × History
  | pp, h, [] => (pp, h)
  | pp, h, p :: ps => if p = pp then follow P pp h ps else follow P p (writeSlot h (pHash P p) p) ps

theorem follow_append (P : Params) (ps qs : List Pixel) (pp : Pixel) (h : History) :
    follow P pp h (ps ++ qs) = follow P (follow P pp h ps).1 (follow P pp h ps).2 qs := by
  induction ps generalizing pp h with
  | nil => rfl
  | cons p ps ih =>
    simp only [List.cons_append, follow]
    split <;> exact ih _ _

theorem follow_replicate (P : Params) (n : Nat) (pp : Pixel) (h : History) :
    follow P pp h (List.replicate n pp) = (pp, h) := by
  induction n with
  | zero => rfl
  | succ n ih => simp only [List.replicate_succ, follow, if_true, ih]

/-- What chunks leave is what their pixels leave (R54). -/
theorem Plays.follow {P : Params} {pp pp' : Pixel} {h h' : History} {is : List Instr} {out : List Pixel}
    (hp : Plays P pp h is out pp' h') : Machine.follow P pp h out = (pp', h') := by
  induction hp with
  | nil => rfl
  | run n _ ih => rw [follow_append, follow_replicate, ih]
  | pixel i _ hn _ ih => simp only [Machine.follow, if_neg hn, ih]

theorem chunkCount_pos (i : Instr) (h : wellFormed i = true) : 1 ≤ chunkCount i := by
  cases i <;> simp_all [chunkCount, wellFormed, inRange_iff]

/-- Chunks are never more than the pixels they ask for. -/
theorem length_le_count (is : List Instr) (hw : ∀ i ∈ is, wellFormed i = true) :
    is.length ≤ (is.map chunkCount).sum := by
  induction is with
  | nil => simp
  | cons i is ih =>
    have h1 := ih (fun j hj => hw j (by simp [hj]))
    have h2 := chunkCount_pos i (hw i (by simp))
    simp only [List.map_cons, List.length_cons, List.sum_cons]
    omega

/-- At most five bytes a pixel (R97). -/
theorem encoded_length_le (is : List Instr) (hw : ∀ i ∈ is, wellFormed i = true) :
    (is.map encode).flatten.length ≤ 5 * (is.map chunkCount).sum := by
  induction is with
  | nil => simp
  | cons i is ih =>
    have h1 := ih (fun j hj => hw j (by simp [hj]))
    have h2 := chunkCount_pos i (hw i (by simp))
    have h3 := instr_length_le i
    simp only [List.map_cons, List.flatten_cons, List.length_append, List.sum_cons, encode_length]
    omega

/-- The selected chunk is well-formed, no RUN, and stands for the pixel it was selected for. -/
theorem selectChunk_spec (P : Params) (h : History) (pp p : Pixel) :
    isPixelChunk (selectChunk P h pp p) = true ∧ chunkPixelOf pp h (selectChunk P h pp p) = p ∧
    wellFormed (selectChunk P h pp p) = true := by
  rcases selectChunk_cases P h pp p with ⟨ha, e⟩ | ⟨hf, e⟩ | ⟨hnd, hf, e⟩ | ⟨ha, e⟩ | ⟨ha, e⟩ <;> rw [e] <;>
    refine ⟨rfl, ?_, ?_⟩
  · exact ha
  · rfl
  · rw [fitsDiff_iff] at hf
    simp only [chunkPixelOf, diffPixel, addChannel_dr, addChannel_dg, addChannel_db, ← hf.1]
  · rw [fitsDiff_iff] at hf
    simp only [wellFormed, Bool.and_eq_true, inRange_iff]
    omega
  · have hx := fitsLuma_exact _ _ _ hf
    rw [fitsLuma_iff] at hf
    simp only [chunkPixelOf, lumaPixel]
    rw [← hx.1, ← hx.2, addChannel_dr, addChannel_dg, addChannel_db, ← hf.1]
  · rw [fitsLuma_iff] at hf
    simp only [wellFormed, Bool.and_eq_true, inRange_iff]
    omega
  · rfl
  · rfl
  · simp only [chunkPixelOf, ← ha]
  · rfl

/-- The encoder has consumed `ps`: its output is the header and some chunks, and those chunks, with the pending run
after them, give the formed pixels and leave the encoder's previous pixel and cache. -/
structure Encoded (P : Params) (w h : BitVec 32) (ch cs : Byte) (ps : List Pixel) (e : Enc) : Prop where
  chunks : ∃ is out, (∀ i ∈ is, wellFormed i = true) ∧ Plays P .seed clearedHistory is out e.pp e.hist ∧
    e.output = headerBytes w h ch cs ++ (is.map encode).flatten ∧
    out ++ List.replicate (e.run.toNat - 1) e.pp = ps.map (formPixel ch)
  run : e.run = 0 ∨ (2 ≤ e.run ∧ e.run ≤ 63)
  channels : e.channels = ch

theorem Encoded.output_length {P : Params} {w h : BitVec 32} {ch cs : Byte} {ps : List Pixel} {e : Enc}
    (j : Encoded P w h ch cs ps e) : e.output.length ≤ 14 + 5 * ps.length := by
  obtain ⟨is, out, hw, hp, ho, hr⟩ := j.chunks
  have h1 := encoded_length_le is hw
  have h2 := hp.length
  have h3 : out.length ≤ ps.length := by
    have := congrArg List.length hr
    simp at this
    omega
  have : (headerBytes w h ch cs).length = 14 := rfl
  rw [ho, List.length_append]
  omega

/-- The encoder's previous pixel and cache are what the pixels it has consumed leave (R54). -/
theorem Encoded.follow {P : Params} {w h : BitVec 32} {ch cs : Byte} {ps : List Pixel} {e : Enc}
    (j : Encoded P w h ch cs ps e) :
    Machine.follow P .seed clearedHistory (ps.map (formPixel ch)) = (e.pp, e.hist) := by
  obtain ⟨is, out, hw, hp, ho, hr⟩ := j.chunks
  rw [← hr, follow_append, hp.follow, follow_replicate]

theorem wellFormed_snoc {is : List Instr} {i : Instr} (hw : ∀ i ∈ is, wellFormed i = true) (h : wellFormed i = true) :
    ∀ j ∈ is ++ [i], wellFormed j = true := by
  intro j hj
  simp only [List.mem_append, List.mem_singleton] at hj
  rcases hj with hj | rfl
  · exact hw j hj
  · exact h

theorem encode_snoc (is : List Instr) (i : Instr) :
    ((is ++ [i]).map encode).flatten = (is.map encode).flatten ++ encode i := by simp

/-- A flush turns the pending run into a chunk (R134). -/
theorem Encoded.flush {P : Params} {w h : BitVec 32} {ch cs : Byte} {ps : List Pixel} {e : Enc}
    (j : Encoded P w h ch cs ps e) :
    Encoded P w h ch cs ps e.flushRun ∧ e.flushRun.run = 0 ∧ e.flushRun.pp = e.pp := by
  obtain ⟨is, out, hw, hp, ho, hr⟩ := j.chunks
  rcases j.run with h0 | ⟨h2, h3⟩
  · have : e.flushRun = e := by rw [Enc.flushRun, if_neg]; rw [h0]; decide
    rw [this]
    exact ⟨j, h0, rfl⟩
  · have hx : e.flushRun = { e.emit e.pendingRun with run := 0 } := if_pos h2
    rw [hx, emit_eq]
    have h2' : 2 ≤ e.run.toNat := h2
    have h3' : e.run.toNat ≤ 63 := h3
    refine ⟨⟨⟨is ++ [e.pendingRun], out ++ List.replicate (e.run.toNat - 1) e.pp, wellFormed_snoc hw ?_,
      hp.snoc_run _, ?_, ?_⟩, .inl rfl, j.channels⟩, rfl, rfl⟩
    · simp only [Enc.pendingRun, wellFormed, inRange_iff]
      omega
    · simp only [encode_snoc, ho, List.append_assoc]
    · simpa using hr

/-- One more pixel (R130). -/
theorem Encoded.pixel {P : Params} {w h : BitVec 32} {ch cs : Byte} {ps : List Pixel} {e : Enc}
    (j : Encoded P w h ch cs ps e) (q : Pixel) : Encoded P w h ch cs (ps ++ [q]) (Enc.pixel P q e) := by
  have h22 : (2 : BitVec 7) ≤ 2 ∧ (2 : BitVec 7) ≤ 63 := by decide
  simp only [Enc.pixel]
  split
  · rename_i hq
    obtain ⟨is, out, hw, hp, ho, hr⟩ := j.chunks
    rw [j.channels] at hq
    have hd : (ps ++ [q]).map (formPixel ch) = out ++ List.replicate (e.run.toNat - 1) e.pp ++ [e.pp] := by
      simp [hr, hq]
    rw [continueRun_eq]
    split
    · rename_i h0
      refine ⟨⟨is, out, hw, hp, ho, ?_⟩, .inr h22, j.channels⟩
      rw [hd, h0]
      simp [Enc.countPixel]
    · rename_i h0
      have h2 : 2 ≤ e.run ∧ e.run ≤ 63 := j.run.resolve_left h0
      have h2' : 2 ≤ e.run.toNat := h2.1
      have h3' : e.run.toNat ≤ 63 := h2.2
      split
      · rename_i h63
        refine ⟨⟨is ++ [.run 62], out ++ List.replicate 62 e.pp, wellFormed_snoc hw rfl, hp.snoc_run _, ?_, ?_⟩,
          .inr h22, j.channels⟩
        · simp only [encode_snoc, ho, Enc.countPixel, List.append_assoc]; rfl
        · rw [hd, h63]; rfl
      · rename_i h63
        have hn : e.run.toNat ≠ 63 := fun hc => h63 (BitVec.eq_of_toNat_eq hc)
        have ha : (e.run + 1).toNat = e.run.toNat + 1 := by
          rw [BitVec.toNat_add]
          show (e.run.toNat + 1) % 128 = _
          omega
        refine ⟨⟨is, out, hw, hp, ho, ?_⟩, .inr ?_, j.channels⟩
        · rw [hd]
          simp only [Enc.countPixel, ha]
          rw [List.append_assoc, ← List.replicate_succ']
          congr 2
          omega
        · simp only [Enc.countPixel]
          constructor <;> bv_omega
  · rename_i hq
    obtain ⟨⟨⟨is, out, hw, hp, ho, hr⟩, _, hc⟩, h0, hpp⟩ := j.flush
    obtain ⟨s1, s2, s3⟩ := selectChunk_spec P e.flushRun.hist e.flushRun.pp (formPixel e.channels q)
    have hs := hp.snoc_pixel _ s1 (by rw [s2, hpp]; exact hq)
    rw [s2] at hs
    refine ⟨⟨is ++ [_], out ++ [_], wellFormed_snoc hw s3,
      (by simpa only [Enc.newPixel, Enc.countPixel, emit_eq] using hs), ?_, ?_⟩, .inl ?_, ?_⟩
    · simp only [Enc.newPixel, Enc.countPixel, emit_eq, encode_snoc, ho, List.append_assoc]
    · simp only [Enc.newPixel, Enc.countPixel, emit_eq, h0, j.channels, List.map_append, List.map_cons, List.map_nil,
        ← hr]
      simp
    · simp only [Enc.newPixel, Enc.countPixel, emit_eq, h0]
    · simp only [Enc.newPixel, Enc.countPixel, emit_eq, hc]

end Sys2Proof.Machine
end

