-- ==== Sys2Proof/Laws/JobSteps.lean ====
section
/-! SUPPORT. How far an encoder has come after some of its own steps, and what a decoder's own steps do with chunks that
play out to known pixels. -/

namespace Sys2Proof.Machine

theorem left_toNat_sub_one {l : BitVec 64} {n : Nat} (h : l.toNat = n + 1) : (l - 1).toNat = n := by
  rw [BitVec.toNat_sub]
  show (2 ^ 64 - 1 + l.toNat) % 2 ^ 64 = _
  omega

theorem countPixel_after (e x : Enc) (qs : List Pixel) (hl : e.left.toNat = qs.length + 1) (h1 : x.phase = .pixels)
    (h2 : x.left = e.left) (h3 : x.input = qs) :
    x.countPixel.phase = (if qs = [] then .finish else .pixels) ∧ x.countPixel.left.toNat = qs.length ∧
    x.countPixel.input = qs := by
  have hll : (e.left - 1).toNat = qs.length := left_toNat_sub_one hl
  simp only [Enc.countPixel, h1, h2, h3, hll, and_true]
  have : e.left - 1 = 0 ↔ qs = [] := by
    rw [← List.length_eq_zero_iff, ← hll]
    exact ⟨fun h => by rw [h]; rfl, fun h => BitVec.eq_of_toNat_eq h⟩
  by_cases hq : qs = []
  · rw [if_pos (this.mpr hq), if_pos hq]
  · rw [if_neg (fun h => hq (this.mp h)), if_neg hq]

/-- A pixel step moves the input, LEFT and the phase on (R141). -/
theorem pixel_after (P : Params) (e : Enc) (q : Pixel) (qs : List Pixel) (hl : e.left.toNat = qs.length + 1)
    (hp : e.phase = .pixels) :
    (Enc.pixel P q { e with input := qs }).phase = (if qs = [] then .finish else .pixels) ∧
    (Enc.pixel P q { e with input := qs }).left.toNat = qs.length ∧
    (Enc.pixel P q { e with input := qs }).input = qs := by
  simp only [Enc.pixel]
  split
  · rw [continueRun_eq]
    split
    · exact countPixel_after e _ qs hl hp rfl rfl
    · split
      · exact countPixel_after e _ qs hl hp rfl rfl
      · exact countPixel_after e _ qs hl hp rfl rfl
  · have hf : Enc.flushRun { e with input := qs } = { e with input := qs } ∨
        ∃ i, Enc.flushRun { e with input := qs } = { Enc.emit { e with input := qs } i with run := 0 } := by
      unfold Enc.flushRun
      split
      · exact .inr ⟨_, rfl⟩
      · exact .inl rfl
    rcases hf with hf | ⟨i, hf⟩ <;> simp only [Enc.newPixel, hf, emit_eq]
    · exact countPixel_after e _ qs hl hp rfl rfl
    · exact countPixel_after e _ qs hl hp rfl rfl

/-- After `n` own steps an encoder with its pixels in the input has consumed `n` of them (R130, R141). -/
theorem owns_pixels (P : Params) (w h : BitVec 32) (ch cs : Byte) (n : Nat) :
    ∀ (qs done : List Pixel) (e : Enc), Encoded P w h ch cs done e → e.input = qs → e.left.toNat = qs.length →
      14 + 5 * (done.length + qs.length) < 2 ^ 64 → e.phase = (if qs = [] then .finish else .pixels) →
      n ≤ qs.length →
      ∃ e', Enc.owns P n e = some e' ∧ Encoded P w h ch cs (done ++ qs.take n) e' ∧
        e'.phase = (if qs.drop n = [] then .finish else .pixels) ∧ e'.left.toNat = qs.length - n ∧
        e'.input = qs.drop n := by
  induction n with
  | zero =>
    intro qs done e j hi hl hb hp _
    exact ⟨e, rfl, by simpa using j, by simpa using hp, hl, by simpa using hi⟩
  | succ n ih =>
    intro qs done e j hi hl hb hp hn
    obtain ⟨q, qs, rfl⟩ : ∃ q t, qs = q :: t := by
      cases qs with
      | nil => simp at hn
      | cons q t => exact ⟨q, t, rfl⟩
    simp only [List.length_cons] at hl hb hn
    have hp : e.phase = .pixels := by simpa using hp
    have j1 : Encoded P w h ch cs done { e with input := qs } := ⟨j.chunks, j.run, j.channels⟩
    have j2 := j1.pixel q
    have hlen := j2.output_length
    simp only [List.length_append, List.length_singleton] at hlen
    have h1 := own_pixels (P := P) hp hi (by omega)
    obtain ⟨x1, x2, x3⟩ := pixel_after P e q qs hl hp
    obtain ⟨e', a, b, c, d, f⟩ := ih qs (done ++ [q]) _ j2 x3 x2 (by simp; omega) x1 (by omega)
    exact ⟨e', by simp only [Enc.owns, h1]; exact a, by simpa using b, by simpa using c, by simp; omega,
      by simpa using f⟩

/-- The own step of a decoder whose next bytes are a RUN chunk that the pixels left are enough for. -/
theorem own_run {P : Params} {d : Dec} {n : Nat} {rest : List Byte} (more : Prop) [Decidable more]
    (hp : d.phase = .chunks) (hs : d.src.length < 2 ^ 64) (hd : decode d.unread = .ok (.run n, rest))
    (hn : n ≤ d.left.toNat) (hm : more ↔ d.left.toNat ≠ n) :
    d.own P = { d with
      inpos := d.inpos + BitVec.ofNat 64 1, output := d.output ++ List.replicate n d.pp
      left := BitVec.ofNat 64 (d.left.toNat - n), phase := if more then .chunks else .trailer } := by
  rw [own_chunk hp hs hd]
  simp only [Dec.chunkEffect]
  rw [repeatPixel_eq _ n (by exact hp)]
  simp only [Nat.min_eq_left hn]
  congr 1
  by_cases h : d.left.toNat ≤ n
  · rw [if_pos h, if_neg (by rw [hm]; omega)]
  · rw [if_neg h, if_pos (by rw [hm]; omega)]

/-- The own step of a decoder whose next bytes are a chunk other than RUN. -/
theorem own_pixel {P : Params} {d : Dec} {i : Instr} {rest : List Byte} (hi : isPixelChunk i = true)
    (hp : d.phase = .chunks) (hs : d.src.length < 2 ^ 64) (hd : decode d.unread = .ok (i, rest)) :
    d.own P = { d with
      inpos := d.inpos + BitVec.ofNat 64 i.length
      output := d.output ++ [chunkPixelOf d.pp d.hist i]
      hist := writeSlot d.hist (pHash P (chunkPixelOf d.pp d.hist i)) (chunkPixelOf d.pp d.hist i)
      pp := chunkPixelOf d.pp d.hist i, left := d.left - 1
      phase := if d.left = 1 then .trailer else .chunks } := by
  rw [own_chunk hp hs hd, chunkEffect_pixel _ _ _ hi, takePixel_endChunk P _ _ (by exact hp)]

/-- The bytes after a chunk that has been fetched. -/
theorem unread_after {d : Dec} {i : Instr} {b : List Byte} (hs : d.src.length < 2 ^ 64) (h : d.unread = encode i ++ b) :
    d.src.drop (d.inpos + BitVec.ofNat 64 i.length).toNat = b := by
  have hne : encode i ≠ [] := by
    intro hc
    have := instr_length_pos i
    rw [← encode_length, hc] at this
    simp at this
  have := (unread_append hs h hne).2
  rw [encode_length] at this
  exact this

/-- A decoder's own step outputs at most one pixel, or several times the previous pixel and touches neither it nor the
cache (R174, R178). -/
theorem own_output (P : Params) (d : Dec) :
    (d.own P).output.length ≤ d.output.length + 1 ∨
    ∃ n, (d.own P).output = d.output ++ List.replicate n d.pp ∧ (d.own P).pp = d.pp ∧ (d.own P).hist = d.hist := by
  unfold Dec.own
  cases hp : d.phase <;> simp only []
  · left; omega
  · left; rcases header_cases d with ⟨w, h, ch, cs, p, e, f⟩ | ⟨c, p, hc, e, f⟩ <;> rw [e] <;> simp [Dec.fail]
  · rcases fetch_forward d with ⟨i, p, h, f⟩ | ⟨p, h, f⟩ <;> rw [h] <;> simp only []
    · rcases chunkEffect_cases P { d with inpos := p } i with ⟨n, rfl, e⟩ | e
      · right; rw [e, repeatPixel_eq _ _ (by exact hp)]; exact ⟨_, rfl, rfl, rfl⟩
      · left; rw [e, takePixel_endChunk P _ _ (by exact hp)]; simp
    · left; simp [Dec.fail]
  · left; rcases trailer_cases d with ⟨p, st, hst, e, f⟩ | ⟨p, e, f⟩ <;> rw [e] <;> simp [Dec.fail]
  · left; omega

end Sys2Proof.Machine
end

