-- ==== Sys2Proof/Laws/PerInstr.lean ====
section
/-! SUPPORT. A statement made per instruction: the first byte of a well-formed chunk is a tag of the chunk's own kind,
and asks for as many bytes as the chunk has (30_encoding.md R84, R92). -/

namespace Sys2Proof.Laws.EncodeTag

/-- The kind of a chunk (R19). -/
def kindOf : Instr → Kind
  | .rgb _ _ _ => .rgb
  | .rgba _ _ _ _ => .rgba
  | .run _ => .run
  | .index _ => .index
  | .diff _ _ _ => .diff
  | .luma _ _ _ => .luma

/-- The first byte of the chunk's bytes has the chunk's kind and asks for the chunk's length. -/
def Statement (i : Instr) : Prop :=
  wellFormed i = true →
    ∃ t rest, encode i = t :: rest ∧ kind t = kindOf i ∧ chunkLen t = i.length

theorem run_tag : ∀ n : Nat, n < 62 →
    kind (0xC0 ||| BitVec.ofNat 8 n) = .run ∧ chunkLen (0xC0 ||| BitVec.ofNat 8 n) = 1 := by decide

theorem index_tag : ∀ i : Fin 64,
    kind (0x00 ||| BitVec.ofNat 8 i.val) = .index ∧ chunkLen (0x00 ||| BitVec.ofNat 8 i.val) = 1 := by decide

theorem luma_tag : ∀ n : Nat, n < 64 →
    kind (0x80 ||| biasedByte ((n : Int) - 32) 32) = .luma ∧
    chunkLen (0x80 ||| biasedByte ((n : Int) - 32) 32) = 2 := by decide

theorem diff_tag : ∀ a b c : Fin 4,
    kind (0x40 ||| (biasedByte ((a.val : Int) - 2) 2 <<< 4) ||| (biasedByte ((b.val : Int) - 2) 2 <<< 2) |||
      biasedByte ((c.val : Int) - 2) 2) = .diff ∧
    chunkLen (0x40 ||| (biasedByte ((a.val : Int) - 2) 2 <<< 4) ||| (biasedByte ((b.val : Int) - 2) 2 <<< 2) |||
      biasedByte ((c.val : Int) - 2) 2) = 1 := by decide

theorem rgb (r g b : Byte) : Statement (.rgb r g b) := fun _ => ⟨0xFE, [r, g, b], rfl, rfl, rfl⟩

theorem rgba (r g b a : Byte) : Statement (.rgba r g b a) := fun _ => ⟨0xFF, [r, g, b, a], rfl, rfl, rfl⟩

theorem run (n : Nat) : Statement (.run n) := by
  intro h
  simp only [wellFormed, inRange_iff] at h
  obtain ⟨h1, h2⟩ := run_tag (n - 1) (by omega)
  exact ⟨_, [], rfl, h1, h2⟩

theorem index (i : Fin 64) : Statement (.index i) := fun _ =>
  ⟨_, [], rfl, (index_tag i).1, (index_tag i).2⟩

theorem diff (dr dg db : Int) : Statement (.diff dr dg db) := by
  intro h
  simp only [wellFormed, Bool.and_eq_true, inRange_iff] at h
  obtain ⟨a, rfl⟩ : ∃ a : Fin 4, dr = (a.val : Int) - 2 := ⟨⟨(dr + 2).toNat, by omega⟩, by simp only; omega⟩
  obtain ⟨b, rfl⟩ : ∃ b : Fin 4, dg = (b.val : Int) - 2 := ⟨⟨(dg + 2).toNat, by omega⟩, by simp only; omega⟩
  obtain ⟨c, rfl⟩ : ∃ c : Fin 4, db = (c.val : Int) - 2 := ⟨⟨(db + 2).toNat, by omega⟩, by simp only; omega⟩
  exact ⟨_, [], rfl, (diff_tag a b c).1, (diff_tag a b c).2⟩

theorem luma (dg drDg dbDg : Int) : Statement (.luma dg drDg dbDg) := by
  intro h
  simp only [wellFormed, Bool.and_eq_true, inRange_iff] at h
  obtain ⟨n, hn, rfl⟩ : ∃ n : Nat, n < 64 ∧ dg = (n : Int) - 32 := ⟨(dg + 32).toNat, by omega, by omega⟩
  exact ⟨_, [_], rfl, (luma_tag n hn).1, (luma_tag n hn).2⟩

end Sys2Proof.Laws.EncodeTag
end

