-- ==== Sys2Proof/Machine/ListingText.lean ====
section
/-! DEFINITION. The text of a listing (30_encoding.md R99, R100): how a record is printed on a line, and how a line is
read back, in characters. -/

namespace Sys2Proof.Machine

/-! ## Printing -/

/-- An integer in decimal (R99). -/
def printInt (v : Int) : List Char :=
  if v < 0 then '-' :: Nat.toDigits 10 v.natAbs else Nat.toDigits 10 v.natAbs

/-- Operands, separated by commas (R99). -/
def printOperands : List Int → List Char
  | [] => []
  | [v] => printInt v
  | v :: vs => printInt v ++ [',', ' '] ++ printOperands vs

/-- A chunk's line (R99). -/
def Instr.line : Instr → List Char
  | .rgb r g b => ['R', 'G', 'B', ' '] ++ printOperands [r.toNat, g.toNat, b.toNat]
  | .rgba r g b a => ['R', 'G', 'B', 'A', ' '] ++ printOperands [r.toNat, g.toNat, b.toNat, a.toNat]
  | .run n => ['R', 'U', 'N', ' '] ++ printOperands [n]
  | .index i => ['I', 'N', 'D', 'E', 'X', ' '] ++ printOperands [i.val]
  | .diff dr dg db => ['D', 'I', 'F', 'F', ' '] ++ printOperands [dr, dg, db]
  | .luma dg drDg dbDg => ['L', 'U', 'M', 'A', ' '] ++ printOperands [dg, drDg, dbDg]

/-- A record's line (R99). Raw bytes are printed as decimal bytes (R100 gives them no form; log entry 10). -/
def Record.line : Record → List Char
  | .header w h ch cs => ['H', 'E', 'A', 'D', 'E', 'R', ' '] ++ printOperands [w.toNat, h.toNat, ch.toNat, cs.toNat]
  | .chunk i => Instr.line i
  | .terminator => ['E', 'N', 'D']
  | .raw bytes => printOperands (bytes.map fun b => (b.toNat : Int))

/-! ## Reading -/

/-- The pieces of a text between separators. -/
def splitAtChar (sep : Char) : List Char → List (List Char)
  | [] => [[]]
  | c :: cs =>
    if c = sep then [] :: splitAtChar sep cs
    else
      match splitAtChar sep cs with
      | [] => [[c]]
      | w :: ws => (c :: w) :: ws

/-- Blanks around a text do not count. -/
def isBlank (c : Char) : Bool := c = ' ' || c = '\t' || c = '\r'

/-- A text without the blanks around it. -/
def trimBlanks (cs : List Char) : List Char :=
  ((cs.dropWhile isBlank).reverse.dropWhile isBlank).reverse

/-- The value of a digit, up to hexadecimal. -/
def digitValue (c : Char) : Option Nat :=
  if '0' ≤ c ∧ c ≤ '9' then some (c.toNat - '0'.toNat)
  else if 'a' ≤ c ∧ c ≤ 'f' then some (c.toNat - 'a'.toNat + 10)
  else if 'A' ≤ c ∧ c ≤ 'F' then some (c.toNat - 'A'.toNat + 10)
  else none

/-- Digits of one base, after the value read so far. -/
def readDigits (base acc : Nat) : List Char → Option Nat
  | [] => some acc
  | c :: cs =>
    match digitValue c with
    | some v => if v < base then readDigits base (acc * base + v) cs else none
    | none => none

/-- A number without a sign: decimal, or hexadecimal after `0x` (R99). -/
def readNat : List Char → Option Nat
  | '0' :: 'x' :: c :: cs => readDigits 16 0 (c :: cs)
  | c :: cs => readDigits 10 0 (c :: cs)
  | [] => none

/-- An integer operand (R99). -/
def readInt (cs : List Char) : Option Int :=
  match trimBlanks cs with
  | '-' :: rest => (readNat rest).map fun n => -(n : Int)
  | rest => (readNat rest).map fun n => (n : Int)

/-- All of a list of operands, or none. -/
def readInts : List (List Char) → Option (List Int)
  | [] => some []
  | w :: ws =>
    match readInt w, readInts ws with
    | some v, some vs => some (v :: vs)
    | _, _ => none

/-- The operands of a line (R99). -/
def readOperands (cs : List Char) : Option (List Int) :=
  if trimBlanks cs = [] then some [] else readInts (splitAtChar ',' cs)

/-- An operand in a byte's range. -/
def operandByte (v : Int) : Option Byte := if inRange 0 255 v then some (BitVec.ofInt 8 v) else none

/-- An operand in a 32-bit unsigned range. -/
def operandWord (v : Int) : Option (BitVec 32) :=
  if inRange 0 4294967295 v then some (BitVec.ofInt 32 v) else none

/-- A chunk whose operands are in range (R99: "an assembler refuses it" otherwise). -/
def checkedChunk (i : Instr) : Option Record := if wellFormed i then some (.chunk i) else none

/-- The record that a mnemonic and its operands spell, if they spell one (R99). -/
def readRecord (name : List Char) (vs : List Int) : Option Record :=
  if name = ['H', 'E', 'A', 'D', 'E', 'R'] then
    match vs with
    | [w, h, ch, cs] =>
      match operandWord w, operandWord h, operandByte ch, operandByte cs with
      | some w, some h, some ch, some cs => some (.header w h ch cs)
      | _, _, _, _ => none
    | _ => none
  else if name = ['E', 'N', 'D'] then
    match vs with
    | [] => some .terminator
    | _ => none
  else if name = ['R', 'G', 'B'] then
    match vs with
    | [r, g, b] =>
      match operandByte r, operandByte g, operandByte b with
      | some r, some g, some b => some (.chunk (.rgb r g b))
      | _, _, _ => none
    | _ => none
  else if name = ['R', 'G', 'B', 'A'] then
    match vs with
    | [r, g, b, a] =>
      match operandByte r, operandByte g, operandByte b, operandByte a with
      | some r, some g, some b, some a => some (.chunk (.rgba r g b a))
      | _, _, _, _ => none
    | _ => none
  else if name = ['R', 'U', 'N'] then
    match vs with
    | [n] => if inRange 1 62 n then checkedChunk (.run n.toNat) else none
    | _ => none
  else if name = ['I', 'N', 'D', 'E', 'X'] then
    match vs with
    | [i] => if inRange 0 63 i then checkedChunk (.index (Fin.ofNat 64 i.toNat)) else none
    | _ => none
  else if name = ['D', 'I', 'F', 'F'] then
    match vs with
    | [dr, dg, db] => checkedChunk (.diff dr dg db)
    | _ => none
  else if name = ['L', 'U', 'M', 'A'] then
    match vs with
    | [dg, drDg, dbDg] => checkedChunk (.luma dg drDg dbDg)
    | _ => none
  else none

/-- What a line holds: a record, or nothing but blanks and a comment after `;` (R99). -/
inductive Line where
  | blank
  | record (r : Record)
  | refused
  deriving DecidableEq, Repr

/-- Read one line (R99). -/
def readLine (cs : List Char) : Line :=
  let text := trimBlanks (cs.takeWhile fun c => c ≠ ';')
  if text = [] then .blank
  else
    match readOperands (text.dropWhile fun c => !isBlank c) with
    | none => .refused
    | some vs =>
      match readRecord (text.takeWhile fun c => !isBlank c) vs with
      | some r => .record r
      | none => .refused

/-- The records of some lines, or nothing when one of them is refused. -/
def readLines : List (List Char) → Option (List Record)
  | [] => some []
  | l :: ls =>
    match readLine l, readLines ls with
    | .refused, _ => none
    | _, none => none
    | .blank, some rs => some rs
    | .record r, some rs => some (r :: rs)

/-- A listing's records: one record a line (R99). -/
def readListing (cs : List Char) : Option (List Record) := readLines (splitAtChar '\n' cs)

/-- The bytes a listing spells (R99). -/
def assembleListing (cs : List Char) : Option (List Byte) :=
  match readListing cs with
  | some rs => assemble rs
  | none => none

end Sys2Proof.Machine
end

