-- ==== Sys2Proof/Tests/Slice0.lean ====
section
/-! SUPPORT. The model's own tests, and for every statement with hypotheses a concrete witness that meets them. Expected
results are from spec/95_test_vectors.md and from the examples of the rules, each named where it stands. -/

namespace Sys2Proof.Tests

open Sys2Proof Sys2Proof.Machine

/-! ## Small states -/

/-- The pixels of 95_test_vectors.md. -/
def pxA : Pixel := { r := 10, g := 20, b := 30, a := 255 }
def pxB : Pixel := { r := 11, g := 19, b := 30, a := 255 }
def pxC : Pixel := { r := 20, g := 30, b := 35, a := 255 }
def pxA2 : Pixel := { r := 10, g := 20, b := 30, a := 128 }
def pxX : Pixel := { r := 74, g := 20, b := 30, a := 255 }

/-- A decoder in CHUNKS with `left` pixels left, at the start of `src`; otherwise as a job starts. -/
def decIn (left : BitVec 64) (src : List Byte) : Dec :=
  { (Dec.afterReset .seed clearedHistory).start src with phase := .chunks, left := left, status := 0x41 }

/-- A decoder whose job has just started on `src`. -/
def decJob (src : List Byte) : Dec := (Dec.afterReset .seed clearedHistory).start src

/-- A block with one decoder. -/
def withDec (d : Dec) : State := { State.reset with decs := [d] }

/-- An encoder in PIXELS with a previous pixel, a run counter, pixels left and an input; no output yet. -/
def encIn (pp : Pixel) (run : BitVec 7) (left : BitVec 64) (input : List Pixel) : Enc :=
  { Enc.afterReset pp clearedHistory run with
    phase := .pixels, channels := 4, left := left, status := 1, input := input }

/-- A block with one encoder. -/
def withEnc (e : Enc) : State := { State.reset with encs := [e] }

/-- The one decoder of an outcome. -/
def decOf : Outcome → Option Dec
  | .next s => s.decs[0]?
  | .fault _ => none
  | .refused _ => none

/-- The one encoder of an outcome. -/
def encOf : Outcome → Option Enc
  | .next s => s.encs[0]?
  | .fault _ => none
  | .refused _ => none

/-! ## Well-formedness: one ill-formed term for each check (R93, R99) -/

theorem test_wf_run_zero : wellFormed (.run 0) = false := by decide
theorem test_wf_run_63 : wellFormed (.run 63) = false := by decide
theorem test_wf_run_62 : wellFormed (.run 62) = true := by decide
theorem test_wf_diff_dr : wellFormed (.diff 2 0 0) = false ∧ wellFormed (.diff (-3) 0 0) = false := by decide
theorem test_wf_diff_dg : wellFormed (.diff 0 2 0) = false ∧ wellFormed (.diff 0 (-3) 0) = false := by decide
theorem test_wf_diff_db : wellFormed (.diff 0 0 2) = false ∧ wellFormed (.diff 0 0 (-3)) = false := by decide
theorem test_wf_luma_dg : wellFormed (.luma 32 0 0) = false ∧ wellFormed (.luma (-33) 0 0) = false := by decide
theorem test_wf_luma_dr_dg : wellFormed (.luma 0 8 0) = false ∧ wellFormed (.luma 0 (-9) 0) = false := by decide
theorem test_wf_luma_db_dg : wellFormed (.luma 0 0 8) = false ∧ wellFormed (.luma 0 0 (-9)) = false := by decide

/-! ## Decoding: words written out bit by bit from R85 to R90 -/

/-- V34: 0xFE, then r = 10, g = 20, b = 30. -/
theorem test_decode_rgb :
    decode [0b11111110, 0b00001010, 0b00010100, 0b00011110, 7] = .ok (.rgb 10 20 30, [7]) := by decide
/-- V35: 0xFF, then r, g, b and a = 128. -/
theorem test_decode_rgba :
    decode [0b11111111, 0b00001010, 0b00010100, 0b00011110, 0b10000000] = .ok (.rgba 10 20 30 128, []) := by decide
/-- R88: bits [7:6] = 11, stored value 61, a run of 62. -/
theorem test_decode_run : decode [0b11111101] = .ok (.run 62, []) := by decide
/-- R85: bits [7:6] = 00, slot 0b001001 = 9. -/
theorem test_decode_index : decode [0b00001001] = .ok (.index 9, []) := by decide
/-- R86's fields of 0x76: 01, then 11 (dr = 1), 01 (dg = -1), 10 (db = 0). -/
theorem test_decode_diff : decode [0b01110110] = .ok (.diff 1 (-1) 0, []) := by decide
/-- P1's AB 62: 10, then 101011 (dg = 11); 0110 (dr_dg = -2), 0010 (db_dg = -6). -/
theorem test_decode_luma : decode [0b10101011, 0b01100010] = .ok (.luma 11 (-2) (-6), []) := by decide
/-- A chunk cut short is no chunk. -/
theorem test_decode_truncated : decode [0x80] = .error .truncated ∧ decode [0xFE, 1, 2] = .error .truncated := by decide
/-- P1's chunks encode to the bytes of its table. -/
theorem test_encode_luma : encode (.luma 11 (-2) (-6)) = [0xAB, 0x62] := by decide
theorem test_encode_diff : encode (.diff 1 (-1) 0) = [0x76] := by decide

/-! ## What a chunk does on decode -/

/-- V40: RGB keeps the previous alpha. -/
theorem test_rgb_keeps_alpha :
    (decOf (exec (.rgb 10 20 30) (withDec { decIn 2 [] with pp := { r := 1, g := 2, b := 3, a := 7 } }))).map Dec.output
      = some [{ r := 10, g := 20, b := 30, a := 7 }] := by decide
/-- R170's example: PP and, under the default hash, slot 9 hold the pixel. -/
theorem test_rgb_writes_slot :
    (decOf (exec (.rgb 10 20 30) (withDec (decIn 2 [])))).map (fun d => (d.pp, readSlot d.hist 9, d.left))
      = some (pxA, pxA, 1) := by decide
/-- V35. -/
theorem test_rgba_pixel :
    (decOf (exec (.rgba 10 20 30 128) (withDec (decIn 1 [])))).map (fun d => (d.output, d.phase))
      = some ([pxA2], .trailer) := by decide
/-- V38: a run is cut to the pixels left. -/
theorem test_run_clipped :
    (decOf (exec (.run 62) (withDec (decIn 1 [])))).map (fun d => (d.output, d.left, d.phase))
      = some ([Pixel.seed], 0, .trailer) := by decide
/-- R174: the cache is not touched, and with pixels left the phase stays. -/
theorem test_run_keeps_cache :
    (decOf (exec (.run 2) (withDec (decIn 5 [])))).map (fun d => (d.output.length, d.left, d.phase, d.hist))
      = some (2, 3, .chunks, clearedHistory) := by decide
/-- V36: a slot never written gives ZERO. -/
theorem test_index_unwritten :
    (decOf (exec (.index 5) (withDec (decIn 1 [])))).map (fun d => (d.output, d.pp)) = some ([Pixel.zero], Pixel.zero) := by
  decide
/-- R175's example: slot 9 holds A. -/
theorem test_index_hit :
    (decOf (exec (.index 9) (withDec { decIn 2 [] with hist := writeSlot clearedHistory 9 pxA }))).map Dec.output
      = some [pxA] := by decide
/-- V30: DIFF wraps below 0. -/
theorem test_diff_wraps :
    (decOf (exec (.diff (-2) (-2) (-2)) (withDec (decIn 1 [])))).map Dec.output
      = some [{ r := 254, g := 254, b := 254, a := 255 }] := by decide
/-- R176's example: fields 3, 1, 2. -/
theorem test_diff_fields :
    (decOf (exec (.diff 1 (-1) 0) (withDec { decIn 1 [] with pp := pxA }))).map Dec.output = some [pxB] := by decide
/-- V32: LUMA's minimum wraps. -/
theorem test_luma_minimum :
    (decOf (exec (.luma (-32) (-8) (-8)) (withDec (decIn 1 [])))).map Dec.output
      = some [{ r := 216, g := 224, b := 216, a := 255 }] := by decide
/-- R177's example: AA 83. -/
theorem test_luma_fields :
    (decOf (exec (.luma 10 0 (-5)) (withDec { decIn 1 [] with pp := pxA }))).map Dec.output = some [pxC] := by decide

/-! ## Steps of a decoder -/

/-- R117's example: the header registers, LEFT and the phase. -/
theorem test_header_accepted :
    (decOf (tick (.dec 0) (withDec (decJob [0x71, 0x6F, 0x69, 0x66, 0, 0, 0, 2, 0, 0, 0, 1, 4, 0])))).map
      (fun d => ((d.width, d.height, d.channels), d.left, d.inpos, d.status, d.phase))
      = some ((2, 1, 4), 2, 14, 0x41, .chunks) := by decide
/-- V7: BAD_MAGIC. -/
theorem test_header_bad_magic :
    (decOf (tick (.dec 0) (withDec (decJob [0x71, 0x6F, 0x69, 0x67, 0, 0, 0, 0, 0, 0, 0, 0, 0, 0])))).map
      (fun d => (d.status, d.inpos, d.width, d.phase)) = some (0x0A, 4, 0, .done) := by decide
/-- V5: fewer than four bytes are TRUNCATED. -/
theorem test_header_truncated :
    (decOf (tick (.dec 0) (withDec (decJob [0x71, 0x6F, 0x69])))).map (fun d => (d.status, d.inpos)) = some (0x22, 3) := by
  decide
/-- V43: the LUMA chunk's second byte is missing. -/
theorem test_chunk_truncated :
    (decOf (tick (.dec 0) (withDec (decIn 6 [0xAB])))).map (fun d => (d.status, d.inpos, d.output, d.left, d.phase))
      = some (0x62, 1, [], 6, .done) := by decide
/-- P3: 0x46 with the terminator, 0x5A with its last byte 00. -/
theorem test_trailer :
    (decOf (tick (.dec 0) (withDec { decIn 0 [0, 0, 0, 0, 0, 0, 0, 1] with phase := .trailer }))).map Dec.status
      = some 0x46 ∧
    (decOf (tick (.dec 0) (withDec { decIn 0 [0, 0, 0, 0, 0, 0, 0, 0] with phase := .trailer }))).map Dec.status
      = some 0x5A := by decide
/-- The step fetches the chunk and moves D.INPOS past it (R39, R170). -/
theorem test_step_fetches :
    (decOf (step (withDec (decIn 2 [0xAB, 0x62, 9])))).map (fun d => (d.inpos, d.output.length, d.phase))
      = some (2, 1, .chunks) := by decide
/-- withFetchWord places a chunk that the first step after reset runs. -/
theorem test_fetch_word :
    (decOf (step (State.reset.withFetchWord 32 0x1E140AFE))).map (fun d => (d.output.length, d.inpos, d.status))
      = some (1, 4, 0x41) := by decide

/-! ## Steps of an encoder -/

/-- V8, V10, V13, V14, V15: the selection from SEED or a pixel near by, with slots that hold ZERO. -/
theorem test_select_rgb : selectChunk .default clearedHistory .seed pxA = .rgb 10 20 30 := by decide
theorem test_select_diff : selectChunk .default clearedHistory pxA pxB = .diff 1 (-1) 0 := by decide
theorem test_select_luma :
    selectChunk .default clearedHistory pxA { r := 12, g := 22, b := 32, a := 255 } = .luma 2 0 0 := by decide
theorem test_select_rgba :
    selectChunk .default clearedHistory pxA { r := 11, g := 20, b := 30, a := 254 } = .rgba 11 20 30 254 := by decide
theorem test_select_index : selectChunk .default (writeSlot clearedHistory 9 pxA) pxX pxA = .index 9 := by decide
/-- V21: the two settings of P_DELTA_ARITH. -/
theorem test_select_wrap :
    selectChunk { hash := .default, deltaArith := .wrap8 } clearedHistory .seed { r := 250, g := 250, b := 250, a := 255 }
      = .luma (-6) 0 0 ∧
    selectChunk { hash := .default, deltaArith := .exact } clearedHistory .seed { r := 250, g := 250, b := 250, a := 255 }
      = .rgb 250 250 250 := by decide
/-- V24: the 63rd repetition emits FD and leaves one pending. -/
theorem test_run_cap :
    (encOf (tick (.enc 0) (withEnc (encIn pxA 63 5 [pxA])))).map (fun e => (e.output, e.run)) = some ([0xFD], 2) := by
  decide
/-- V25: the flush comes before the chunk. -/
theorem test_run_flush :
    (encOf (tick (.enc 0) (withEnc (encIn pxA 3 5 [pxB])))).map (fun e => (e.output, e.run, e.pp))
      = some ([0xC1, 0x76], 0, pxB) := by decide
/-- V26: the final flush comes before the terminator. -/
theorem test_finish :
    (encOf (tick (.enc 0) (withEnc { encIn pxA 63 0 [] with phase := .finish }))).map (fun e => (e.output, e.status))
      = some ([0xFD, 0, 0, 0, 0, 0, 0, 0, 1], 0x06) := by decide
/-- V1: the header. -/
theorem test_enc_start :
    (encOf (hostCmd (.encStart 0 2 1 4 0) State.reset)).map (fun e => (e.output, e.phase, e.left))
      = some ([0x71, 0x6F, 0x69, 0x66, 0, 0, 0, 2, 0, 0, 0, 1, 4, 0], .pixels, 2) := by decide
/-- P5: ENC_START(0, 5, 3, 1) goes to FINISH at once. -/
theorem test_enc_start_empty :
    (encOf (hostCmd (.encStart 0 0 5 3 1) State.reset)).map (fun e => (e.phase, e.left)) = some (.finish, 0) := by decide

/-! ## The default hash (93_implementation_defined.md, the table of slots) and listings -/

theorem test_hash_slots :
    defaultHash pxA = 9 ∧ defaultHash pxB = 7 ∧ defaultHash pxC = 60 ∧ defaultHash pxA2 = 20 ∧ defaultHash .seed = 53 ∧
    defaultHash .zero = 0 := by decide
/-- R99: `RUN 63` is refused, in a record and on a line. -/
theorem test_listing_refuses_run_63 :
    assemble [.chunk (.run 63)] = none ∧ readLine ['R', 'U', 'N', ' ', '6', '3'] = .refused := by decide
/-- P2's listing: its bytes, and back. -/
theorem test_listing_p2 :
    disassemble [0x71, 0x6F, 0x69, 0x66, 0, 0, 0, 3, 0, 0, 0, 2, 4, 0, 0xC1, 0x05, 0x7F, 0x80, 0x00, 0xFD,
        0, 0, 0, 0, 0, 0, 0, 1]
      = some [.header 3 2 4 0, .chunk (.run 2), .chunk (.index 5), .chunk (.diff 1 1 1), .chunk (.luma (-32) (-8) (-8)),
        .chunk (.run 62), .terminator] := by decide
/-- R99's operands: decimal, hexadecimal, a sign, a comment. -/
theorem test_listing_line :
    readLine ['L', 'U', 'M', 'A', ' ', '0', 'x', 'B', ',', ' ', '-', '2', ',', '-', '6', ' ', ';', ' ', 'x']
      = .record (.chunk (.luma 11 (-2) (-6))) := by decide

/-! ## Witnesses: a concrete state and operands that meet the hypotheses of each statement -/

theorem witness_TagByteGivesKindAndLength :
    (0x00 : Byte) ≤ 0x3F ∧ (0x3F : Byte) ≤ 0x3F ∧ (0x40 : Byte) ≤ 0x40 ∧ (0x40 : Byte) ≤ 0x7F ∧ (0x7F : Byte) ≤ 0x7F ∧
    (0x80 : Byte) ≤ 0xBF ∧ (0xBF : Byte) ≤ 0xBF ∧ (0xC0 : Byte) ≤ 0xFD ∧ (0xC0 : Byte) ≤ 0xC0 := by decide
theorem witness_DecodeOfEncode : wellFormed (.luma (-32) 7 (-8)) = true := by decide
theorem witness_EncodeOfDecode : decode [0xBF, 0xFF, 1] = .ok (.luma 31 7 7, [1]) := by decide
theorem witness_DecodeNeedsExactlyTheChunksBytes :
    chunkLen 0xFF ≤ [1, 2, 3, 4].length + 1 ∧ [1, 2, 3].length + 1 < chunkLen 0xFF := by decide
theorem witness_DisassembleOfAssemble :
    (∀ i ∈ [Instr.rgb 10 20 30, .run 3], wellFormed i = true) ∧
    (([Instr.rgb 10 20 30, .run 3]).map chunkCount).sum = (2 : BitVec 32).toNat * (2 : BitVec 32).toNat := by decide

/-- Of RgbResult, RgbaResult, RunResult, IndexResult, DiffResult, LumaResult: a decoder in CHUNKS. -/
theorem witness_chunk_results :
    (withDec (decIn 1 [])).decs[(withDec (decIn 1 [])).sel]? = some (decIn 1 []) ∧ (decIn 1 []).phase = .chunks ∧
    0 ≤ 61 ∧ 61 ≤ 61 :=
  ⟨rfl, rfl, by decide, by decide⟩
theorem witness_PixelChunkFrame :
    isPixelChunk (.diff (-2) 1 0) = true ∧
    exec (.diff (-2) 1 0) (withDec (decIn 1 [])) =
      .next ((withDec (decIn 1 [])).setDec 0 ((decIn 1 []).diff .default (-2) 1 0)) := ⟨rfl, rfl⟩
theorem witness_RunFrame :
    exec (.run 62) (withDec (decIn 1 [])) = .next ((withDec (decIn 1 [])).setDec 0 ((decIn 1 []).repeatPixel 62)) := rfl
theorem witness_ChunkOutsideChunksPhaseRefused :
    (withDec (decJob [])).decs[(withDec (decJob [])).sel]? = some (decJob []) ∧ (decJob []).phase ≠ .chunks :=
  ⟨rfl, by decide⟩

/-- Both ways of StepRunsDecodedChunk: the turn written on the agenda, and the empty agenda. -/
theorem witness_StepRunsDecodedChunk :
    let d := decIn 1 [0x80, 0x00]
    let s := withDec d
    let t : State := { s with agenda := [.tick (.dec 0)] }
    s.decs[0]? = some d ∧ t.decs[0]? = some d ∧ d.phase = .chunks ∧ d.src.length < 2 ^ 64 ∧
    decode d.unread = .ok (.luma (-32) (-8) (-8), []) ∧
    t.agenda = .tick (.dec 0) :: [] ∧ s.agenda = [] ∧ s.nextReady = some (.dec 0) := by decide
theorem witness_StepTakesTheFirstMove :
    ({ State.reset with agenda := [.cmd (.decAbort 0)] } : State).agenda = .cmd (.decAbort 0) :: [] ∧
    ({ State.reset with agenda := [.tick (.enc 0)] } : State).agenda = .tick (.enc 0) :: [] ∧
    ({ State.reset with agenda := [.bus 0 []] } : State).agenda = .bus 0 [] :: [] ∧
    (withDec (decJob [])).agenda = [] ∧ (withDec (decJob [])).nextReady = some (.dec 0) := by decide
theorem witness_TruncatedChunkEndsJob :
    (withDec (decIn 1 [0xFF, 1, 2, 3])).decs[0]? = some (decIn 1 [0xFF, 1, 2, 3]) ∧
    (decIn 1 [0xFF, 1, 2, 3]).phase = .chunks ∧ (decIn 1 [0xFF, 1, 2, 3]).src.length < 2 ^ 64 ∧
    (decIn 1 [0xFF, 1, 2, 3]).inpos.toNat ≤ (decIn 1 [0xFF, 1, 2, 3]).src.length ∧
    decode (decIn 1 [0xFF, 1, 2, 3]).unread = .error .truncated := by decide

/-- Fourteen header bytes whose width is the largest. -/
def headerOf (w h : BitVec 32) : Dec := decJob (headerBytes w h 4 0)

theorem witness_HeaderAccepted :
    (withDec (headerOf 0xFFFFFFFF 1)).decs[0]? = some (headerOf 0xFFFFFFFF 1) ∧ (headerOf 0xFFFFFFFF 1).phase = .header ∧
    (headerOf 0xFFFFFFFF 1).src.length < 2 ^ 64 ∧
    (headerOf 0xFFFFFFFF 1).unread =
      [0x71, 0x6F, 0x69, 0x66] ++ be32Bytes 0xFFFFFFFF ++ be32Bytes 1 ++ [4, 0] ++ [] := by decide
theorem witness_BadMagicEndsJob :
    (withDec (decJob [0x71, 0x6F, 0x69, 0x67])).decs[0]? = some (decJob [0x71, 0x6F, 0x69, 0x67]) ∧
    (decJob [0x71, 0x6F, 0x69, 0x67]).phase = .header ∧ (decJob [0x71, 0x6F, 0x69, 0x67]).src.length < 2 ^ 64 ∧
    (decJob [0x71, 0x6F, 0x69, 0x67]).inpos.toNat + 4 ≤ (decJob [0x71, 0x6F, 0x69, 0x67]).src.length ∧
    (decJob [0x71, 0x6F, 0x69, 0x67]).unread.take 4 ≠ [0x71, 0x6F, 0x69, 0x66] := by decide
/-- Both ways of TruncatedHeaderEndsJob: three bytes, and thirteen. -/
theorem witness_TruncatedHeaderEndsJob :
    (withDec (decJob [1, 2, 3])).decs[0]? = some (decJob [1, 2, 3]) ∧ (decJob [1, 2, 3]).phase = .header ∧
    (decJob [1, 2, 3]).inpos.toNat ≤ (decJob [1, 2, 3]).src.length ∧ (decJob [1, 2, 3]).unread.length < 4 ∧
    (decJob (magic ++ [0, 0, 0, 1, 0, 0, 0, 1, 4])).unread.take 4 = [0x71, 0x6F, 0x69, 0x66] ∧
    (decJob (magic ++ [0, 0, 0, 1, 0, 0, 0, 1, 4])).unread.length < 14 := by decide

/-- A decoder in TRAILER at the start of `src`. -/
def trailerOf (src : List Byte) : Dec := { decIn 0 src with phase := .trailer }

/-- Both clauses of TrailerChecked: the terminator, and the same with its last bit flipped. -/
theorem witness_TrailerChecked :
    (withDec (trailerOf terminator)).decs[0]? = some (trailerOf terminator) ∧ (trailerOf terminator).phase = .trailer ∧
    (trailerOf terminator).inpos.toNat + 8 ≤ (trailerOf terminator).src.length ∧
    (trailerOf terminator).unread.take 8 = [0, 0, 0, 0, 0, 0, 0, 1] ∧
    (trailerOf [0, 0, 0, 0, 0, 0, 0, 0]).inpos.toNat + 8 ≤ (trailerOf [0, 0, 0, 0, 0, 0, 0, 0]).src.length ∧
    (trailerOf [0, 0, 0, 0, 0, 0, 0, 0]).unread.take 8 ≠ [0, 0, 0, 0, 0, 0, 0, 1] := by decide
theorem witness_TruncatedTrailerEndsJob :
    (withDec (trailerOf [0, 0, 0, 0, 0, 0, 1])).decs[0]? = some (trailerOf [0, 0, 0, 0, 0, 0, 1]) ∧
    (trailerOf [0, 0, 0, 0, 0, 0, 1]).phase = .trailer ∧
    (trailerOf [0, 0, 0, 0, 0, 0, 1]).inpos.toNat ≤ (trailerOf [0, 0, 0, 0, 0, 0, 1]).src.length ∧
    (trailerOf [0, 0, 0, 0, 0, 0, 1]).unread.length < 8 := by decide

/-- A decoder and an encoder whose job is done. -/
def decDone : Dec := { decIn 0 [] with phase := .done, status := 0x46 }
def encDone : Enc := { encIn pxA 0 0 [] with phase := .done, status := 0x06 }

theorem witness_DecStartResult :
    (withDec decDone).decs[0]? = some decDone ∧ decDone.phase = .done ∧ ([1, 2] : List Byte).length < 2 ^ 64 ∧
    State.reset.decs[0]? = some (Dec.afterReset .zero (Vector.replicate 64 .zero)) := by decide
theorem witness_EncStartResult :
    (withEnc encDone).encs[0]? = some encDone ∧ encDone.phase = .done ∧
    State.reset.encs[0]? = some (Enc.afterReset .zero (Vector.replicate 64 .zero) 0) := by decide
theorem witness_StartWhileBusyRefused :
    (withEnc (encIn pxA 0 1 [])).encs[0]? = some (encIn pxA 0 1 []) ∧ (encIn pxA 0 1 []).phase = .pixels ∧
    (withDec (decJob [])).decs[0]? = some (decJob []) ∧ (decJob []).phase = .header := by decide
/-- Of AbortResult and HostReadsHaveNoEffect: an engine that exists. -/
theorem witness_commands :
    (withEnc (encIn pxA 2 1 [])).encs[0]? = some (encIn pxA 2 1 []) ∧
    (withDec (decJob [1])).decs[0]? = some (decJob [1]) := by decide
theorem witness_FormedPixelAlpha : (4 : Byte) = 4 ∧ (3 : Byte) ≠ 4 := by decide

/-- The three clauses of RunContinuation, at the ends of their ranges. -/
theorem witness_RunContinuation :
    (withEnc (encIn pxA 0 1 [pxA])).encs[0]? = some (encIn pxA 0 1 [pxA]) ∧ (encIn pxA 0 1 [pxA]).phase = .pixels ∧
    (encIn pxA 0 1 [pxA]).input = pxA :: [] ∧ formPixel (encIn pxA 0 1 [pxA]).channels pxA = (encIn pxA 0 1 [pxA]).pp ∧
    (encIn pxA 0 1 [pxA]).output.length + 1 < 2 ^ 64 ∧ (encIn pxA 0 1 [pxA]).run = 0 ∧
    (2 ≤ (encIn pxA 2 1 [pxA]).run ∧ (encIn pxA 2 1 [pxA]).run ≤ 62) ∧
    (2 ≤ (encIn pxA 62 1 [pxA]).run ∧ (encIn pxA 62 1 [pxA]).run ≤ 62) ∧
    (encIn pxA 63 1 [pxA]).run = 63 := by decide
theorem witness_NewPixelResult :
    (withEnc (encIn pxA 63 1 [pxB])).encs[0]? = some (encIn pxA 63 1 [pxB]) ∧ (encIn pxA 63 1 [pxB]).phase = .pixels ∧
    (encIn pxA 63 1 [pxB]).input = pxB :: [] ∧ formPixel (encIn pxA 63 1 [pxB]).channels pxB = pxB ∧
    pxB ≠ (encIn pxA 63 1 [pxB]).pp ∧
    ((encIn pxA 63 1 [pxB]).run = 0 ∨ 2 ≤ (encIn pxA 63 1 [pxB]).run) ∧
    (encIn pxA 63 1 [pxB]).output.length + 6 < 2 ^ 64 := by decide
theorem witness_LumaConditionNeedsNoOuterWrap :
    -32 ≤ (deltas .wrap8 { r := 0, g := 0, b := 0, a := 0 } { r := 0, g := 32, b := 0, a := 0 }).dg ∧
    (deltas .wrap8 { r := 0, g := 31, b := 0, a := 0 } .zero).dg ≤ 31 := by decide
/-- The clauses of SelectionPriority, each reached by a pixel of its own (V16, V9, V10, V15, V8). -/
theorem witness_SelectionPriority :
    readSlot (writeSlot clearedHistory 9 pxA) (pHash .default pxA) = pxA ∧
    fitsDiff pxB pxA (deltas .wrap8 pxB pxA) = true ∧ readSlot clearedHistory (pHash .default pxB) ≠ pxB ∧
    fitsDiff pxC pxA (deltas .wrap8 pxC pxA) = false ∧ fitsLuma pxC pxA (deltas .wrap8 pxC pxA) = true ∧
    readSlot clearedHistory (pHash .default pxC) ≠ pxC ∧
    pxA2.a ≠ pxA.a ∧ readSlot clearedHistory (pHash .default pxA2) ≠ pxA2 ∧
    fitsDiff pxX pxA (deltas .wrap8 pxX pxA) = false ∧ fitsLuma pxX pxA (deltas .wrap8 pxX pxA) = false ∧
    pxX.a = pxA.a ∧ readSlot clearedHistory (pHash .default pxX) ≠ pxX := by decide
theorem witness_NeverEmitted : pxB ≠ pxA := by decide
theorem witness_EncFinishResult :
    (withEnc { encIn pxA 63 0 [] with phase := .finish }).encs[0]? = some { encIn pxA 63 0 [] with phase := .finish } ∧
    (2 : BitVec 7) ≤ (encIn pxA 63 0 []).run ∧ (encIn pxA 63 0 []).output.length + 9 < 2 ^ 64 := by decide
theorem witness_RunOfRepetitionsBytes :
    1 ≤ 63 ∧ (encIn pxA 0 100 []).run = 0 ∧ formPixel (encIn pxA 0 100 []).channels pxA = (encIn pxA 0 100 []).pp := by
  decide
theorem witness_WaitingEnginesDoNothing :
    (withEnc (encIn pxA 0 1 [])).encs[0]? = some (encIn pxA 0 1 []) ∧ (encIn pxA 0 1 []).phase = .pixels ∧
    (encIn pxA 0 1 []).input = [] ∧ (withDec decDone).decs[0]? = some decDone ∧ decDone.phase = .done := by decide
theorem witness_HardwareResetFromAnyState :
    ({ withDec (decIn 1 [0xC0]) with agenda := [.hardReset] } : State).agenda = .hardReset :: [] := rfl

theorem encInv_reset : EncInv (Enc.afterReset .zero (Vector.replicate 64 .zero) 0) := by
  constructor <;> simp [Enc.afterReset, encStatusOf]
theorem encBound_reset : EncBound (Enc.afterReset .zero (Vector.replicate 64 .zero) 0) := by
  constructor <;> simp [Enc.afterReset]
theorem decInv_job : DecInv (decJob [0x71]) := by
  constructor <;> simp [decJob, decStatusesOf, Dec.start, statusStarted, statusSetBit, statusOk]
theorem witness_StepKeepsEncoderInvariant :
    (∀ e ∈ State.reset.encs, EncInv e ∧ EncBound e) ∧ step State.reset = .next State.reset :=
  ⟨fun e he => by simp [State.reset] at he; subst he; exact ⟨encInv_reset, encBound_reset⟩, rfl⟩
theorem witness_StepKeepsDecoderInvariant :
    (∀ d ∈ (withDec (decJob [0x71])).decs, DecInv d) ∧
    ∃ t, step (withDec (decJob [0x71])) = .next t :=
  ⟨fun d hd => by simp [withDec] at hd; subst hd; exact decInv_job, ⟨_, rfl⟩⟩
theorem witness_StepKeepsCacheInvariant : CachesInv State.reset ∧ step State.reset = .next State.reset :=
  ⟨⟨fun e he hp => by simp [State.reset] at he; subst he; exact absurd rfl hp,
    fun d hd hp => by simp [State.reset] at hd; subst hd; exact absurd rfl hp⟩, rfl⟩
theorem witness_NoBadTagNoReservedCode : DecInv (decJob [0x71]) := decInv_job
/-- Of StepKeepsParametersAndEngines, EngineStepWritesOnlyItself and EngineStepReadsOnlyItself: steps that are taken, the
second from a block that holds more than the first. -/
theorem witness_engine_steps :
    let s := withDec (decIn 1 [0xC0])
    let t : State := { s with encs := [], agenda := [.hardReset], resets := 3 }
    (∃ u, step s = .next u) ∧ (∃ u, tick (.dec 0) s = .next u) ∧ (∃ u, tick (.enc 0) (withEnc encDone) = .next u) ∧
    s.params = t.params ∧ s.decs[0]? = t.decs[0]? := ⟨⟨_, rfl⟩, ⟨_, rfl⟩, ⟨_, rfl⟩, rfl, rfl⟩
theorem witness_EngineStepsCommute :
    let s : State := { withDec (decIn 1 [0xC0]) with encs := [encIn pxA 0 1 [pxB]] }
    EngineId.enc 0 ≠ .dec 0 ∧ ∃ a b, tick (.enc 0) s = .next a ∧ tick (.dec 0) a = .next b :=
  ⟨by decide, _, _, rfl, rfl⟩
theorem witness_StreamsOnlyGoForward :
    (withDec (decIn 1 [0xC0])).decs[0]? = some (decIn 1 [0xC0]) ∧ (decIn 1 [0xC0]).src.length < 2 ^ 64 ∧
    (decIn 1 [0xC0]).inpos.toNat ≤ (decIn 1 [0xC0]).src.length ∧
    (withEnc (encIn pxA 0 1 [pxB])).encs[0]? = some (encIn pxA 0 1 [pxB]) := by decide
theorem witness_StreamsOnlyGoForward_steps :
    (∃ t, tick (.dec 0) (withDec (decIn 1 [0xC0])) = .next t) ∧
    ∃ t, tick (.enc 0) (withEnc (encIn pxA 0 1 [pxB])) = .next t := ⟨⟨_, rfl⟩, ⟨_, rfl⟩⟩
theorem witness_SelectedChunkDecodesToThePixel :
    (withDec (decIn 1 [])).decs[(withDec (decIn 1 [])).sel]? = some (decIn 1 []) ∧ (decIn 1 []).phase = .chunks ∧
    (decIn 1 []).pp = (encIn .seed 0 1 [pxA]).pp ∧ (decIn 1 []).hist = (encIn .seed 0 1 [pxA]).hist := ⟨rfl, rfl, rfl, rfl⟩
/-- Of EncodeJobCompletes, DecodeOfEncodedImage and LockstepAtEveryPixel: the block after reset, and a 2 by 1 image. -/
theorem witness_jobs :
    State.reset.encs[0]? = some (Enc.afterReset .zero (Vector.replicate 64 .zero) 0) ∧
    (Enc.afterReset .zero (Vector.replicate 64 .zero) 0).free ∧
    State.reset.decs[0]? = some (Dec.afterReset .zero (Vector.replicate 64 .zero)) ∧
    (Dec.afterReset .zero (Vector.replicate 64 .zero)).free ∧
    [pxA, pxA].length = (2 : BitVec 32).toNat * (1 : BitVec 32).toNat ∧ 22 + 5 * [pxA, pxA].length < 2 ^ 64 :=
  ⟨rfl, .inl rfl, rfl, .inl rfl, by decide, by decide⟩
/-- The outputs of engine 0 after `n` steps of a run. -/
def encOut (n : Nat) (s : State) : Option (List Byte) :=
  match steps n s with | .next t => t.encs[0]?.map Enc.output | .fault _ => none | .refused _ => none
def decOut (n : Nat) (s : State) : Option (List Pixel) :=
  match steps n s with | .next t => t.decs[0]?.map Dec.output | .fault _ => none | .refused _ => none
/-- Of the second case of LockstepAtEveryPixel: a RUN of two pixels passes n = 1 inside one step. -/
theorem witness_LockstepAtEveryPixel_inside_a_run :
    let coded : List Byte := headerBytes 2 1 4 0 ++ [0xC1] ++ terminator
    encOut 5 { State.reset with agenda := encodeAgenda 0 2 1 4 0 [.seed, .seed] } = some coded ∧
    decOut (1 + 1) { State.reset with agenda := decodeAgenda 0 coded 4 } = some [] ∧
    decOut (2 + 1) { State.reset with agenda := decodeAgenda 0 coded 4 } = some [.seed, .seed] := by
  refine ⟨?_, ?_, ?_⟩ <;> decide
/-- Of FirstChunkIsARunForSeed, both ways: a first pixel SEED, and another; and V19's bytes. -/
theorem witness_FirstChunkIsARunForSeed :
    State.reset.encs[0]? = some (Enc.afterReset .zero (Vector.replicate 64 .zero) 0) ∧
    (Enc.afterReset .zero (Vector.replicate 64 .zero) 0).free ∧
    (Pixel.seed :: []).length = (1 : BitVec 32).toNat * (1 : BitVec 32).toNat ∧ 22 + 5 * (Pixel.seed :: []).length < 2 ^ 64 ∧
    formPixel 4 .seed = .seed ∧ formPixel 4 pxA ≠ .seed ∧
    encOut 4 { State.reset with agenda := encodeAgenda 0 1 1 4 0 [.seed] } =
      some (headerBytes 1 1 4 0 ++ [0xC0] ++ terminator) :=
  ⟨rfl, .inl rfl, by decide, by decide, by decide, by decide, by decide⟩
/-- Of SelectableChunks: an INDEX under the default hash, and a chunk of another kind under an unknown one; and the
DIFF that R101 lists and R136 rules out. -/
theorem witness_SelectableChunks :
    (∀ slot, Instr.index 63 = .index slot → (Params.default).hash = .default) ∧
    (∀ slot, Instr.diff 1 (-2) 0 = .index slot →
      ({ hash := .other, deltaArith := .exact } : Params).hash = .default) ∧
    wellFormed (.diff 0 0 0) = true ∧ isPixelChunk (.diff 0 0 0) = true :=
  ⟨fun _ _ => rfl, fun _ h => (by cases h), rfl, rfl⟩
theorem witness_DecodeJobEnds :
    (withDec (decJob [0x71])).decs[0]? = some (decJob [0x71]) ∧ DecInv (decJob [0x71]) ∧ (decJob [0x71]).phase = .header :=
  ⟨rfl, decInv_job, rfl⟩

end Sys2Proof.Tests
end

section
/-! The tag byte's table (30_encoding.md R84, R91, R92). `kind` reads the top two bits of a byte and R84 gives ranges;
the ranges are quarters of 0..255, so the top two bits are the quarter's number. -/

namespace Sys2Proof.Encoding

/-- The top two bits of a byte are the number of the quarter of 0..255 that it lies in. -/
theorem topBits_eq_of_quarter {t : Byte} (q : Nat) (lo : 64 * q ≤ t.toNat) (hi : t.toNat < 64 * q + 64) :
    t.extractLsb' 6 2 = BitVec.ofNat 2 q := by
  have hdiv : t.toNat / 64 = q := by omega
  apply BitVec.eq_of_toNat_eq
  rw [BitVec.extractLsb'_toNat, Nat.shiftRight_eq_div_pow, BitVec.toNat_ofNat]
  exact congrArg (· % 2 ^ 2) hdiv

/-- Away from the two exact values, the top two bits alone give the kind (R91). -/
theorem kind_of_topBits {t : Byte} (h : t < 0xFE) :
    kind t = if t.extractLsb' 6 2 = 0b11 then .run else if t.extractLsb' 6 2 = 0b00 then .index
      else if t.extractLsb' 6 2 = 0b01 then .diff else .luma := by
  have hFE : t ≠ 0xFE := by bv_omega
  have hFF : t ≠ 0xFF := by bv_omega
  rw [kind, if_neg hFE, if_neg hFF]

theorem kind_eq_index {t : Byte} (hi : t ≤ 0x3F) : kind t = .index := by
  have hq := topBits_eq_of_quarter (t := t) 0 (by bv_omega) (by bv_omega)
  rw [kind_of_topBits (by bv_omega), hq]; rfl

theorem kind_eq_diff {t : Byte} (lo : 0x40 ≤ t) (hi : t ≤ 0x7F) : kind t = .diff := by
  have hq := topBits_eq_of_quarter (t := t) 1 (by bv_omega) (by bv_omega)
  rw [kind_of_topBits (by bv_omega), hq]; rfl

theorem kind_eq_luma {t : Byte} (lo : 0x80 ≤ t) (hi : t ≤ 0xBF) : kind t = .luma := by
  have hq := topBits_eq_of_quarter (t := t) 2 (by bv_omega) (by bv_omega)
  rw [kind_of_topBits (by bv_omega), hq]; rfl

theorem kind_eq_run {t : Byte} (lo : 0xC0 ≤ t) (hi : t ≤ 0xFD) : kind t = .run := by
  have hq := topBits_eq_of_quarter (t := t) 3 (by bv_omega) (by bv_omega)
  rw [kind_of_topBits (by bv_omega), hq]; rfl

/-- The chunk length that goes with a kind (R84, R92). -/
def kindLen : Kind → Nat
  | .rgb => 4
  | .rgba => 5
  | .luma => 2
  | .run | .index | .diff => 1

theorem chunkLen_eq_kindLen (t : Byte) : chunkLen t = kindLen (kind t) := by
  rw [chunkLen_eq]
  cases kind t <;> rfl

theorem kind_and_chunkLen_of_kind {t : Byte} {k : Kind} (hk : kind t = k) : kind t = k ∧ chunkLen t = kindLen k :=
  ⟨hk, hk ▸ chunkLen_eq_kindLen t⟩

/-- Settles O1: the kind from the byte's range, and the length from the kind (`chunkLen_eq_kindLen`). -/
theorem tagByteGivesKindAndLength : Obligations.TagByteGivesKindAndLength := by
  intro t
  refine ⟨?rgb, ?rgba, ?index, ?diff, ?luma, ?run⟩
  case rgb => rintro rfl; exact kind_and_chunkLen_of_kind rfl
  case rgba => rintro rfl; exact kind_and_chunkLen_of_kind rfl
  case index => exact fun hi => kind_and_chunkLen_of_kind (kind_eq_index hi)
  case diff => exact fun ⟨lo, hi⟩ => kind_and_chunkLen_of_kind (kind_eq_diff lo hi)
  case luma => exact fun ⟨lo, hi⟩ => kind_and_chunkLen_of_kind (kind_eq_luma lo hi)
  case run => exact fun ⟨lo, hi⟩ => kind_and_chunkLen_of_kind (kind_eq_run lo hi)

end Sys2Proof.Encoding
end

section
/-! Starting a job and ending an encode job (40_header_trailer.md R111, R113, R116): each of the three steps in one
record update, and the move of the block that takes it. -/

namespace Sys2Proof.HeaderTrailer

open Sys2Proof.Machine

/-! ## The engines -/

/-- A start step keeps nothing of the decoder (R116). -/
theorem decStart_eq (src : List Byte) (d : Dec) :
    d.start src =
      { phase := .header, width := 0, height := 0, channels := 0, colorspace := 0
        pp := .seed, hist := clearedHistory, left := 0, inpos := 0, status := statusStarted
        src := src, output := [] } := rfl

/-- A start step keeps nothing of the encoder, and the output is the header (R111). -/
theorem encStart_eq (w h : BitVec 32) (ch cs : Byte) (e : Enc) :
    e.start w h ch cs =
      { phase := if pixelCount w h = 0 then .finish else .pixels
        width := w, height := h, channels := ch, colorspace := cs
        pp := .seed, hist := clearedHistory, run := 0, left := pixelCount w h, outpos := 14, status := statusStarted
        output := headerBytes w h ch cs, input := [] } := by
  rw [Enc.start, outBytes_eq]; rfl

/-- A job has no pixel exactly when the exact product is 0 (R111). -/
theorem pixelCount_eq_zero_iff (w h : BitVec 32) : pixelCount w h = 0 ↔ w.toNat * h.toNat = 0 := by
  rw [← BitVec.toNat_inj, pixelCount_toNat]; rfl

/-- The pending run's byte and the terminator in one record update (R113). -/
theorem encFinish_eq (e : Enc) (h : e.run = 0 ∨ 2 ≤ e.run) :
    e.finish = { e with
      run := 0, output := e.output ++ (e.pendingBytes ++ terminator)
      outpos := e.outpos + BitVec.ofNat 64 (e.pendingBytes ++ terminator).length
      status := statusEncDone, phase := .done } := by
  simp only [Enc.finish, flushRun_eq e h, outBytes_eq, List.append_assoc, List.length_append, BitVec.ofNat_add,
    BitVec.add_assoc]

/-- EncFinish emits at most nine bytes: one of a pending run, eight of the terminator (R113). -/
theorem encFinish_output_length_le (e : Enc) (h : e.run = 0 ∨ 2 ≤ e.run) :
    e.finish.output.length ≤ e.output.length + 9 := by
  have hp := pendingBytes_length_le e
  have ht : terminator.length = 8 := rfl
  simp only [encFinish_eq e h, List.length_append]
  omega

/-! ## The moves -/

/-- An engine's output short of 2^64 bytes is written (R31). -/
theorem putEnc_of_lt (s : State) (k : Nat) {e : Enc} (h : e.output.length < 2 ^ 64) :
    s.putEnc k e = .next (s.setEnc k e) := if_pos h

/-- DEC_START on a free decoder starts it (R116). -/
theorem decStartCmd_of_free {s : State} {k : Nat} {d : Dec} {src : List Byte} (hd : s.decs[k]? = some d)
    (hf : d.free) (hs : src.length < 2 ^ 64) : decStartCmd k src s = .next (s.setDec k (d.start src)) := by
  rcases hf with hp | hp <;> simp only [decStartCmd, hd, hp, if_pos hs]

/-- ENC_START on a free encoder starts it: the header's 14 bytes are always inside the model (R111). -/
theorem encStartCmd_of_free {s : State} {k : Nat} {e : Enc} (w h : BitVec 32) (ch cs : Byte)
    (he : s.encs[k]? = some e) (hf : e.free) :
    encStartCmd k w h ch cs s = .next (s.setEnc k (e.start w h ch cs)) := by
  have hl : (e.start w h ch cs).output.length < 2 ^ 64 := by
    have hh : (headerBytes w h ch cs).length = 14 := rfl
    rw [encStart_eq, hh]; decide
  rcases hf with hp | hp <;> simp only [encStartCmd, he, hp, putEnc_of_lt s k hl]

/-- The turn of an encoder in FINISH is EncFinish (R24, R113). -/
theorem tick_enc_finish {s : State} {k : Nat} {e : Enc} (he : s.encs[k]? = some e) (hp : e.phase = .finish)
    (hl : e.finish.output.length < 2 ^ 64) : tick (.enc k) s = .next (s.setEnc k e.finish) := by
  simp only [tick, tickEnc, he, hp, putEnc_of_lt s k hl]

/-! ## The statements -/

/-- Settles O24: a free decoder takes the command (`decStartCmd_of_free`), and the start step overwrites every field
(`decStart_eq`). -/
theorem decStartResult : Obligations.DecStartResult := by
  intro s k d src hd hf hs
  rw [hostCmd, decStartCmd_of_free hd hf hs, decStart_eq]
  rfl

/-- Settles O25: a free encoder takes the command (`encStartCmd_of_free`), the start step overwrites every field
(`encStart_eq`), and the pixel count is the exact product. -/
theorem encStartResult : Obligations.EncStartResult := by
  intro s k e w h ch cs he hf
  refine ⟨pixelCount w h, pixelCount_toNat w h, ?_⟩
  rw [hostCmd, encStartCmd_of_free w h ch cs he hf, encStart_eq]
  simp only [pixelCount_eq_zero_iff]
  rfl

/-- Settles O36: the turn is EncFinish (`tick_enc_finish`), which emits the pending run's bytes and the terminator
(`encFinish_eq`), at most nine bytes. -/
theorem encFinishResult : Obligations.EncFinishResult := by
  intro s k e he hp hr hl
  refine ⟨e.pendingBytes ++ terminator, rfl, ?_⟩
  rw [tick_enc_finish he hp ((encFinish_output_length_le e hr).trans_lt hl), encFinish_eq e hr]
  rfl

end Sys2Proof.HeaderTrailer
end

section
/-! One `EncPixel` step of an encoder (41_encoder.md R130 to R134, R140, R141): the formed pixel, the two paths of R130,
the count of the pixel in one record update, and the turn of the block that takes the step. -/

namespace Sys2Proof.EncoderPixel

open Sys2Proof.Machine Sys2Proof.HeaderTrailer

/-! ## The formed pixel -/

/-- A 4-channel job keeps the alpha byte (R131). -/
theorem formPixel_four (q : Pixel) : formPixel 4 q = q := if_pos rfl

/-- Every other channels byte is treated as 3 (R131). -/
theorem formPixel_of_ne_four {ch : Byte} (h : ch ≠ 4) (q : Pixel) : formPixel ch q = { q with a := 255 } := if_neg h

/-! ## The engine -/

/-- Counting a pixel in PIXELS: FINISH follows exactly the last one (R141). -/
theorem countPixel_eq {e : Enc} (hp : e.phase = .pixels) :
    e.countPixel = { e with left := e.left - 1, phase := if e.left = 1 then .finish else .pixels } := by
  simp only [Enc.countPixel, hp, sub_eq_zero]

/-- A formed pixel equal to the previous one takes the run path (R130, R132). -/
theorem pixel_of_eq (P : Params) {q : Pixel} {e : Enc} (h : formPixel e.channels q = e.pp) :
    Enc.pixel P q e = e.continueRun.countPixel := by
  rw [Enc.pixel, if_pos h]

/-- A formed pixel that differs from the previous one takes the other path (R130, R134). -/
theorem pixel_of_ne (P : Params) {q : Pixel} {e : Enc} (h : formPixel e.channels q ≠ e.pp) :
    Enc.pixel P q e = (e.newPixel P (formPixel e.channels q)).countPixel := by
  rw [Enc.pixel, if_neg h]

/-- The first repetition sets the counter to 2 (R132). -/
theorem continueRun_of_zero {e : Enc} (h : e.run = 0) : e.continueRun = { e with run := 2 } := by
  rw [continueRun_eq, if_pos h]

/-- Below the cap a repetition counts up by one and emits nothing (R132). -/
theorem continueRun_below_cap {e : Enc} (h0 : e.run ≠ 0) (h63 : e.run ≠ 63) :
    e.continueRun = { e with run := e.run + 1 } := by
  rw [continueRun_eq, if_neg h0, if_neg h63]

/-- At the cap 62 repetitions go out as 0xFD and one stays pending (R132). -/
theorem continueRun_at_cap {e : Enc} (h : e.run = 63) :
    e.continueRun = { e with run := 2, output := e.output ++ [0xFD], outpos := e.outpos + 1 } := by
  have h0 : e.run ≠ 0 := by bv_omega
  rw [continueRun_eq, if_neg h0, if_pos h]

/-- Off the run path at most six bytes go out: one of a pending run, five of a chunk (R92, R134). -/
theorem newPixel_output_length_le (P : Params) (p : Pixel) (e : Enc) (h : e.run = 0 ∨ 2 ≤ e.run) :
    (e.newPixel P p).output.length ≤ e.output.length + 6 := by
  have hp := pendingBytes_length_le e
  have hc := instr_length_le (selectChunk P e.hist e.pp p)
  simp only [newPixel_eq P p e h, List.length_append, encode_length]
  omega

/-! ## The turn -/

/-- The turn of an encoder in PIXELS with a pixel to take is EncPixel (R24, R130): `x` is the engine before the pixel is
counted. -/
theorem tick_enc_pixel {s : State} {k : Nat} {e x : Enc} {q : Pixel} {qs : List Pixel} (he : s.encs[k]? = some e)
    (hp : e.phase = .pixels) (hi : e.input = q :: qs)
    (hx : Enc.pixel s.params q { e with input := qs } = x.countPixel) (hxp : x.phase = .pixels)
    (hl : x.output.length < 2 ^ 64) :
    tick (.enc k) s = .next (s.setEnc k
      { x with left := x.left - 1, phase := if x.left = 1 then .finish else .pixels }) := by
  have hput : tick (.enc k) s = s.putEnc k (Enc.pixel s.params q { e with input := qs }) := by
    simp only [tick, tickEnc, he, hp, hi]
  rw [hput, hx, putEnc_of_lt s k (by rwa [countPixel_output]), countPixel_eq hxp]

/-! ## The statements -/

/-- Settles O29, by the channels byte (`formPixel_four`, `formPixel_of_ne_four`). -/
theorem formedPixelAlpha : Obligations.FormedPixelAlpha := by
  intro ch q
  refine ⟨?four, ?other⟩
  case four => rintro rfl; exact formPixel_four q
  case other => exact fun h => formPixel_of_ne_four h q

/-- Settles O30: the pixel takes the run path (`pixel_of_eq`), and the value of the counter says what that comes to. -/
theorem runContinuation : Obligations.RunContinuation := by
  intro s k e q qs he hp hi hq hl
  have hrun : Enc.pixel s.params q { e with input := qs } = ({ e with input := qs } : Enc).continueRun.countPixel :=
    pixel_of_eq s.params hq
  have hshort : e.output.length < 2 ^ 64 := Nat.lt_of_succ_lt hl
  refine ⟨?zero, ?belowCap, ?atCap⟩
  case zero =>
    intro h
    rw [continueRun_of_zero (e := { e with input := qs }) h] at hrun
    exact tick_enc_pixel he hp hi hrun hp hshort
  case belowCap =>
    rintro ⟨lo, up⟩
    have h0 : e.run ≠ 0 := by bv_omega
    have h63 : e.run ≠ 63 := by bv_omega
    rw [continueRun_below_cap (e := { e with input := qs }) h0 h63] at hrun
    exact tick_enc_pixel he hp hi hrun hp hshort
  case atCap =>
    intro h
    rw [continueRun_at_cap (e := { e with input := qs }) h] at hrun
    have hlen : (e.output ++ [0xFD]).length < 2 ^ 64 := by rwa [List.length_append]
    exact tick_enc_pixel he hp hi hrun hp hlen

/-- Settles O31: the pixel takes the other path (`pixel_of_ne`), which emits the pending run's bytes and the selected
chunk's after them (`newPixel_eq`), at most six bytes. -/
theorem newPixelResult : Obligations.NewPixelResult := by
  intro s k e q qs p he hp hi hform hne hr hl
  subst hform
  have hnew : Enc.pixel s.params q { e with input := qs } =
      (Enc.newPixel s.params (formPixel e.channels q) { e with input := qs }).countPixel := pixel_of_ne s.params hne
  have hlen := (newPixel_output_length_le s.params (formPixel e.channels q) { e with input := qs } hr).trans_lt hl
  rw [newPixel_eq _ _ { e with input := qs } hr] at hnew hlen
  exact ⟨e.pendingBytes ++ encode (selectChunk s.params e.hist e.pp (formPixel e.channels q)), rfl,
    tick_enc_pixel he hp hi hnew hp hlen⟩

end Sys2Proof.EncoderPixel
end

section
/-! The chunks that give one pixel each, on decode (42_decoder.md R170, R172, R173, R175, R178): one statement of what
such a chunk does to the decoder in CHUNKS, and the three chunks that take their pixel from literal bytes or a slot. -/

namespace Sys2Proof.DecoderChunk

open Sys2Proof.Machine Sys2Proof.Encoding

/-! ## The effect of a chunk of one pixel -/

/-- In CHUNKS every chunk but RUN outputs its pixel, writes the pixel's slot, makes it the previous pixel and counts it;
TRAILER follows exactly the last one (R170, R178, R180). -/
theorem exec_pixelChunk {s : State} {d : Dec} {i : Instr} (hd : s.decs[s.sel]? = some d) (hp : d.phase = .chunks)
    (hi : isPixelChunk i = true) :
    exec i s = .next (s.setDec s.sel { d with
      output := d.output ++ [chunkPixelOf d.pp d.hist i]
      hist := writeSlot d.hist (pHash s.params (chunkPixelOf d.pp d.hist i)) (chunkPixelOf d.pp d.hist i)
      pp := chunkPixelOf d.pp d.hist i
      left := d.left - 1
      phase := if d.left = 1 then .trailer else .chunks }) := by
  rw [exec_chunks hd hp, chunkEffect_pixel _ _ _ hi, takePixel_endChunk _ _ _ hp]

/-! ## The tag of INDEX -/

/-- A byte below 64 holds its value in its low six bits (R85). -/
theorem lowSixBits_ofNat (i : Fin 64) : ((BitVec.ofNat 8 i).extractLsb' 0 6).toFin = i := by
  have h256 : (i : Nat) < 256 := by omega
  apply Fin.ext
  rw [BitVec.val_toFin, BitVec.extractLsb'_toNat, BitVec.toNat_ofNat, Nat.shiftRight_zero, Nat.mod_eq_of_lt h256,
    Nat.mod_eq_of_lt i.isLt]

/-- The tag byte of INDEX is the slot's number (R85, R91). -/
theorem decode_slotNumber (i : Fin 64) (rest : List Byte) :
    decode (BitVec.ofNat 8 i :: rest) = .ok (.index i, rest) := by
  have hk : kind (BitVec.ofNat 8 i) = .index := kind_eq_index (by bv_omega)
  rw [decode_index hk, lowSixBits_ofNat]

/-! ## The statements -/

/-- Settles O7: the tag is the exact value 0xFE (`decode_rgb`), and the pixel is the three bytes with the previous alpha
(`exec_pixelChunk`). -/
theorem rgbResult : Obligations.RgbResult := by
  intro r g b
  refine ⟨?encoding, ?result⟩
  case encoding => exact decode_rgb rfl r g b
  case result => exact fun _ _ hd hp => exec_pixelChunk (i := .rgb r g b) hd hp rfl

/-- Settles O8: the tag is the exact value 0xFF (`decode_rgba`), and the pixel is the four bytes (`exec_pixelChunk`). -/
theorem rgbaResult : Obligations.RgbaResult := by
  intro r g b a
  refine ⟨?encoding, ?result⟩
  case encoding => exact decode_rgba rfl r g b a
  case result => exact fun _ _ hd hp => exec_pixelChunk (i := .rgba r g b a) hd hp rfl

/-- Settles O10: the tag is the slot's number (`decode_slotNumber`), and the pixel is what the slot holds
(`exec_pixelChunk`). -/
theorem indexResult : Obligations.IndexResult := by
  intro i
  refine ⟨?encoding, ?result⟩
  case encoding => exact decode_slotNumber i
  case result => exact fun _ _ hd hp => exec_pixelChunk (i := .index i) hd hp rfl

end Sys2Proof.DecoderChunk
end

section
/-! The abort of an engine (60_exceptions.md R220): the two commands ask only that the engine exists, never for its phase,
and change its phase and STATUS alone. -/

namespace Sys2Proof.Exceptions

open Sys2Proof.Machine

/-! ## The engines -/

/-- An abort keeps all of the encoder but its phase and STATUS (R220). -/
theorem encAbort_eq (e : Enc) : e.abort = { e with phase := .idle, status := 0 } := rfl

/-- An abort keeps all of the decoder but its phase and STATUS (R220). -/
theorem decAbort_eq (d : Dec) : d.abort = { d with phase := .idle, status := 0 } := rfl

/-! ## The moves -/

/-- ENC_ABORT aborts an encoder that exists, whatever its phase (R220). -/
theorem encAbortCmd_of_some {s : State} {k : Nat} {e : Enc} (he : s.encs[k]? = some e) :
    encAbortCmd k s = .next (s.setEnc k e.abort) := by
  simp only [encAbortCmd, he]

/-- DEC_ABORT aborts a decoder that exists, whatever its phase (R220). -/
theorem decAbortCmd_of_some {s : State} {k : Nat} {d : Dec} (hd : s.decs[k]? = some d) :
    decAbortCmd k s = .next (s.setDec k d.abort) := by
  simp only [decAbortCmd, hd]

/-! ## The statement -/

/-- Settles O27: an engine that exists takes the command in every phase (`encAbortCmd_of_some`, `decAbortCmd_of_some`),
and the abort changes phase and STATUS alone (`encAbort_eq`, `decAbort_eq`). -/
theorem abortResult : Obligations.AbortResult := by
  refine ⟨?encoder, ?decoder⟩
  case encoder =>
    intro s k e he
    rw [hostCmd, encAbortCmd_of_some he, encAbort_eq]
  case decoder =>
    intro s k d hd
    rw [hostCmd, decAbortCmd_of_some hd, decAbort_eq]

end Sys2Proof.Exceptions
end

section
/-! The chunks' wire format, both ways (30_encoding.md R85 to R95): the tag bytes of RUN, DIFF and LUMA with their fields
filled in, every chunk's bytes decoded again, and every byte sequence that decodes written again. -/

namespace Sys2Proof.ChunkRoundTrip

open Sys2Proof.Encoding Sys2Proof.DecoderChunk Sys2Proof.Laws

/-! ## Fields and their biases -/

/-- The bias put on and taken off again leaves the field (R93). -/
theorem biasedByte_sub (v : Nat) (bias : Int) : biasedByte ((v : Int) - bias) bias = BitVec.ofNat 8 v := by
  rw [biasedByte, sub_add_cancel, BitVec.ofInt_natCast]

/-- A decoded operand is written as the field it was read from (R93). -/
theorem biasedByte_biasedField (b : Byte) (lo len : Nat) (bias : Int) :
    biasedByte (biasedField b lo len bias) bias = BitVec.ofNat 8 (b.extractLsb' lo len).toNat :=
  biasedByte_sub _ bias

/-- An operand in its range is a field less its bias (R93). -/
theorem exists_field {v : Int} {bias size : Nat} (lo : -(bias : Int) ≤ v) (hi : v < (size : Int) - bias) :
    ∃ f : Fin size, v = (f : Nat) - (bias : Int) :=
  ⟨⟨(v + bias).toNat, by omega⟩, by simp only; omega⟩

/-- Under a tag with no low bits, the low six bits of the byte are the value put there. -/
theorem lowSixBits_or {tag : Byte} (ht : tag.extractLsb' 0 6 = 0) {v : Nat} (hv : v < 64) :
    ((tag ||| BitVec.ofNat 8 v).extractLsb' 0 6).toNat = v := by
  have h256 : v < 256 := by omega
  rw [BitVec.extractLsb'_or, ht, BitVec.ofNat_eq_ofNat, BitVec.zero_or, BitVec.extractLsb'_toNat, BitVec.toNat_ofNat,
    Nat.shiftRight_zero, Nat.mod_eq_of_lt h256, Nat.mod_eq_of_lt hv]

/-! ## Tags with their fields filled in -/

/-- RUN's stored values 0..61 (R88). -/
theorem decode_runTag {v : Nat} (hv : v ≤ 61) (rest : List Byte) :
    decode ((0xC0 ||| BitVec.ofNat 8 v) :: rest) = .ok (.run (v + 1), rest) := by
  rw [decode_run (EncodeTag.run_tag v (by omega)).1, lowSixBits_or rfl (by omega)]

/-- The 64 tags of DIFF, field by field (R86). -/
theorem diffTag_fields : ∀ fr fg fb : Fin 4,
    let t : Byte := 0x40 ||| (BitVec.ofNat 8 fr <<< 4) ||| (BitVec.ofNat 8 fg <<< 2) ||| BitVec.ofNat 8 fb
    kind t = .diff ∧ (t.extractLsb' 4 2).toNat = fr ∧ (t.extractLsb' 2 2).toNat = fg ∧ (t.extractLsb' 0 2).toNat = fb := by
  decide

theorem decode_diffTag (fr fg fb : Fin 4) (rest : List Byte) :
    decode ((0x40 ||| (BitVec.ofNat 8 fr <<< 4) ||| (BitVec.ofNat 8 fg <<< 2) ||| BitVec.ofNat 8 fb) :: rest) =
      .ok (.diff ((fr : Nat) - 2) ((fg : Nat) - 2) ((fb : Nat) - 2), rest) := by
  obtain ⟨hk, hr, hg, hb⟩ := diffTag_fields fr fg fb
  rw [decode_diff hk]
  simp only [biasedField, hr, hg, hb]

/-- The 64 tags of LUMA (R87). -/
theorem lumaTag_kind : ∀ fg6 : Fin 64, kind (0x80 ||| BitVec.ofNat 8 fg6) = .luma := by decide

theorem decode_lumaTag (fg6 : Fin 64) (u : Byte) (rest : List Byte) :
    decode ((0x80 ||| BitVec.ofNat 8 fg6) :: u :: rest) =
      .ok (.luma ((fg6 : Nat) - 32) (biasedField u 4 4 8) (biasedField u 0 4 8), rest) := by
  rw [decode_luma (lumaTag_kind fg6), biasedField, lowSixBits_or rfl fg6.isLt]

/-- The nibbles of LUMA's second byte (R87). -/
theorem lumaByte_nibbles : ∀ fr fb : Fin 16,
    let u : Byte := (BitVec.ofNat 8 fr <<< 4) ||| BitVec.ofNat 8 fb
    (u.extractLsb' 4 4).toNat = fr ∧ (u.extractLsb' 0 4).toNat = fb := by decide

/-! ## A tag of a kind is that kind's bits and its fields -/

theorem tag_of_kind_rgb : ∀ t : Byte, kind t = .rgb → t = 0xFE := by decide

theorem tag_of_kind_rgba : ∀ t : Byte, kind t = .rgba → t = 0xFF := by decide

/-- A RUN's tag stores 0..61: 62 and 63 would be 0xFE and 0xFF (R88). -/
theorem tag_of_kind_run : ∀ t : Byte, kind t = .run →
    (t.extractLsb' 0 6).toNat ≤ 61 ∧ t = 0xC0 ||| BitVec.ofNat 8 (t.extractLsb' 0 6).toNat := by decide

theorem tag_of_kind_index : ∀ t : Byte, kind t = .index →
    t = 0x00 ||| BitVec.ofNat 8 (t.extractLsb' 0 6).toNat := by decide

theorem tag_of_kind_diff : ∀ t : Byte, kind t = .diff →
    t = 0x40 ||| (BitVec.ofNat 8 (t.extractLsb' 4 2).toNat <<< 4) |||
      (BitVec.ofNat 8 (t.extractLsb' 2 2).toNat <<< 2) ||| BitVec.ofNat 8 (t.extractLsb' 0 2).toNat := by decide

theorem tag_of_kind_luma : ∀ t : Byte, kind t = .luma →
    t = 0x80 ||| BitVec.ofNat 8 (t.extractLsb' 0 6).toNat := by decide

theorem byte_of_nibbles : ∀ u : Byte,
    u = (BitVec.ofNat 8 (u.extractLsb' 4 4).toNat <<< 4) ||| BitVec.ofNat 8 (u.extractLsb' 0 4).toNat := by decide

/-! ## The statements -/

/-- Settles O3, chunk by chunk: an operand in range is a field less its bias (`exists_field`), and a tag with its fields
filled in decodes to them. -/
theorem decodeOfEncode : Obligations.DecodeOfEncode := by
  intro i rest hw
  cases i with
  | rgb r g b => exact decode_rgb rfl r g b rest
  | rgba r g b a => exact decode_rgba rfl r g b a rest
  | run n =>
    obtain ⟨lo, hi⟩ := inRange_iff.mp hw
    have hn : n - 1 + 1 = n := by omega
    have h := decode_runTag (v := n - 1) (by omega) rest
    rwa [hn] at h
  | index i =>
    have h := decode_slotNumber i rest
    rwa [← BitVec.zero_or (x := BitVec.ofNat 8 i)] at h
  | diff dr dg db =>
    simp only [wellFormed, Bool.and_eq_true, inRange_iff] at hw
    obtain ⟨⟨hr, hg⟩, hb⟩ := hw
    obtain ⟨fr, rfl⟩ := exists_field (bias := 2) (size := 4) hr.1 (by omega)
    obtain ⟨fg, rfl⟩ := exists_field (bias := 2) (size := 4) hg.1 (by omega)
    obtain ⟨fb, rfl⟩ := exists_field (bias := 2) (size := 4) hb.1 (by omega)
    simp only [encode, Nat.cast_ofNat, biasedByte_sub]
    exact decode_diffTag fr fg fb rest
  | luma dg drDg dbDg =>
    simp only [wellFormed, Bool.and_eq_true, inRange_iff] at hw
    obtain ⟨⟨hg, hr⟩, hb⟩ := hw
    obtain ⟨fg, rfl⟩ := exists_field (bias := 32) (size := 64) hg.1 (by omega)
    obtain ⟨fr, rfl⟩ := exists_field (bias := 8) (size := 16) hr.1 (by omega)
    obtain ⟨fb, rfl⟩ := exists_field (bias := 8) (size := 16) hb.1 (by omega)
    obtain ⟨hhi, hlo⟩ := lumaByte_nibbles fr fb
    simp only [encode, Nat.cast_ofNat, biasedByte_sub]
    have h := decode_lumaTag fg ((BitVec.ofNat 8 fr <<< 4) ||| BitVec.ofNat 8 fb) rest
    rwa [biasedField, biasedField, hhi, hlo] at h

/-- Settles O4, by the tag's kind: the bytes are the kind's own, so the operands are in range and spell them again. -/
theorem encodeOfDecode : Obligations.EncodeOfDecode := by
  intro bytes rest i h
  rcases bytes with _ | ⟨t, bytes⟩
  · cases h
  cases hk : kind t with
  | rgb =>
    obtain rfl := tag_of_kind_rgb t hk
    rcases bytes with _ | ⟨r, _ | ⟨g, _ | ⟨b, bytes⟩⟩⟩ <;> cases h
    exact ⟨rfl, rfl⟩
  | rgba =>
    obtain rfl := tag_of_kind_rgba t hk
    rcases bytes with _ | ⟨r, _ | ⟨g, _ | ⟨b, _ | ⟨a, bytes⟩⟩⟩⟩ <;> cases h
    exact ⟨rfl, rfl⟩
  | run =>
    obtain ⟨hle, ht⟩ := tag_of_kind_run t hk
    rw [decode_run hk] at h
    cases h
    exact ⟨inRange_iff.mpr (by omega), congrArg (· :: _) ht⟩
  | index =>
    rw [decode_index hk] at h
    cases h
    exact ⟨rfl, congrArg (· :: _) (tag_of_kind_index t hk)⟩
  | diff =>
    rw [decode_diff hk] at h
    cases h
    have hr := biasedField_range t 4 2 2
    have hg := biasedField_range t 2 2 2
    have hb := biasedField_range t 0 2 2
    simp only [wellFormed, Bool.and_eq_true, inRange_iff, encode, biasedByte_biasedField, List.cons_append,
      List.nil_append]
    exact ⟨by omega, congrArg (· :: _) (tag_of_kind_diff t hk)⟩
  | luma =>
    rcases bytes with _ | ⟨u, bytes⟩
    · simp [decode, hk] at h
    rw [decode_luma hk] at h
    cases h
    have hg := biasedField_range t 0 6 32
    have hr := biasedField_range u 4 4 8
    have hb := biasedField_range u 0 4 8
    simp only [wellFormed, Bool.and_eq_true, inRange_iff, encode, biasedByte_biasedField, List.cons_append,
      List.nil_append]
    exact ⟨by omega, congrArg₂ (· :: · :: _) (tag_of_kind_luma t hk) (byte_of_nibbles u)⟩

/-- Bytes after a chunk have no say in it (R77). -/
theorem decode_append {bytes rest : List Byte} {i : Instr} (h : decode bytes = .ok (i, rest)) (after : List Byte) :
    decode (bytes ++ after) = .ok (i, rest ++ after) := by
  obtain ⟨hw, rfl⟩ := encodeOfDecode bytes rest i h
  rw [List.append_assoc]
  exact decodeOfEncode i _ hw

/-- Settles O5: enough bytes decode (`decode_complete`), those of the chunk alone decode the same (`decode_took`), and a
chunk never takes fewer. -/
theorem decodeNeedsExactlyTheChunksBytes : Obligations.DecodeNeedsExactlyTheChunksBytes := by
  intro t more
  refine ⟨?enough, ?tooFew⟩
  case enough =>
    intro hlen
    obtain ⟨i, rest, h⟩ := decode_complete hlen
    obtain ⟨hi, -, htake⟩ := decode_took h
    exact ⟨i, hi, decode_append htake⟩
  case tooFew =>
    intro hlen
    rcases h : decode (t :: more) with ⟨⟨⟩⟩ | ⟨i, rest⟩
    · rfl
    · have hle := (decode_took h).2.1
      omega

/-- Settles O2: each word is written out and decoded. -/
theorem writtenOutWordsDecode : Obligations.WrittenOutWordsDecode := by
  unfold Obligations.WrittenOutWordsDecode
  decide

end Sys2Proof.ChunkRoundTrip
end

section
/-! The assembler and the disassembler (30_encoding.md R99, R100): what each makes of a list of well-formed chunks. -/

namespace Sys2Proof.ListingRoundTrip

open Sys2Proof.Machine Sys2Proof.ChunkRoundTrip

/-- The assembler puts the records' bytes one after another (R99). -/
theorem assemble_append {rs rs' : List Record} {bs bs' : List Byte} (h : assemble rs = some bs)
    (h' : assemble rs' = some bs') : assemble (rs ++ rs') = some (bs ++ bs') := by
  induction rs generalizing bs with
  | nil => cases h; exact h'
  | cons r rs ih =>
    simp only [assemble] at h
    split at h
    · rename_i b rest hb hrest
      cases h
      simp only [List.cons_append, assemble, hb, ih hrest, List.append_assoc]
    · cases h

/-- Well-formed chunks assemble to their encodings (R99). -/
theorem assemble_chunks {is : List Instr} (hw : ∀ i ∈ is, wellFormed i = true) :
    assemble (is.map .chunk) = some (is.map encode).flatten := by
  induction is with
  | nil => rfl
  | cons i is ih =>
    have hi : Record.bytes (.chunk i) = some (encode i) := if_pos (hw i List.mem_cons_self)
    have his := ih fun j hj => hw j (List.mem_cons_of_mem i hj)
    simp only [List.map_cons, assemble, hi, his, List.flatten_cons]

/-- A chunk that asks for no more pixels than are left stands for all that it asks for (R100). -/
theorem pixels_of_le {i : Instr} {left : Nat} (h : chunkCount i ≤ left) : Instr.pixels left i = chunkCount i := by
  cases i with
  | run n => exact Nat.min_eq_left h
  | rgb | rgba | index | diff | luma => rfl

/-- Chunks that ask for exactly the pixels left are read back, and no byte after them is (R100). -/
theorem disassembleChunks_encoded {is : List Instr} (hw : ∀ i ∈ is, wellFormed i = true) {fuel : Nat}
    (hf : is.length ≤ fuel) (tail : List Byte) :
    disassembleChunks fuel (is.map chunkCount).sum ((is.map encode).flatten ++ tail) = (is.map .chunk, tail) := by
  induction is generalizing fuel with
  | nil => cases fuel <;> rfl
  | cons i is ih =>
    obtain ⟨fuel, rfl⟩ : ∃ f, fuel = f + 1 := ⟨fuel - 1, by simp only [List.length_cons] at hf; omega⟩
    have hi := hw i List.mem_cons_self
    have his := ih (fun j hj => hw j (List.mem_cons_of_mem i hj)) (Nat.le_of_succ_le_succ hf)
    have hpos := chunkCount_pos i hi
    have hleft : chunkCount i + (is.map chunkCount).sum ≠ 0 := by omega
    have hdec := decodeOfEncode i ((is.map encode).flatten ++ tail) hi
    simp only [List.map_cons, List.sum_cons, List.flatten_cons, List.append_assoc, disassembleChunks, if_neg hleft, hdec,
      pixels_of_le (Nat.le_add_right _ _), Nat.add_sub_cancel_left, his]

/-- Every chunk has a byte, so as much fuel as there are bytes is enough (R97). -/
theorem length_le_bytes (is : List Instr) : is.length ≤ (is.map encode).flatten.length := by
  induction is with
  | nil => simp
  | cons i is ih =>
    have h := instr_length_pos i
    simp only [List.map_cons, List.flatten_cons, List.length_append, List.length_cons, encode_length]
    omega

/-- The disassembler reads a header with the magic, then chunks, then the end (R100). -/
theorem disassemble_header (w h : BitVec 32) (ch cs : Byte) (rest : List Byte) :
    disassemble (headerBytes w h ch cs ++ rest) =
      some (.header w h ch cs :: (disassembleChunks rest.length (w.toNat * h.toNat) rest).1 ++
        [disassembleEnd (disassembleChunks rest.length (w.toNat * h.toNat) rest).2]) := by
  simp only [headerBytes, magic, be32Bytes, List.cons_append, List.nil_append, disassemble, be32_of_bytes, if_true]

/-- Settles O6: the listing assembles to the header, the chunks' encodings and the terminator, and the disassembler reads
the chunks back one by one (`disassembleChunks_encoded`). -/
theorem disassembleOfAssemble : Obligations.DisassembleOfAssemble := by
  intro w h ch cs is hw hcount
  refine ⟨headerBytes w h ch cs ++ (is.map encode).flatten ++ terminator, ?assembled, ?disassembled⟩
  case assembled =>
    have hheader : assemble [.header w h ch cs] = some (headerBytes w h ch cs) := by
      simp only [assemble, Record.bytes, List.append_nil]
    exact assemble_append (assemble_append hheader (assemble_chunks hw)) rfl
  case disassembled =>
    have hfuel : is.length ≤ ((is.map encode).flatten ++ terminator).length := by
      rw [List.length_append]
      exact (length_le_bytes is).trans (Nat.le_add_right _ _)
    rw [List.append_assoc, disassemble_header, ← hcount, disassembleChunks_encoded hw hfuel]
    rfl

end Sys2Proof.ListingRoundTrip
end

section
/-! The chunks RUN, DIFF and LUMA on decode, and the frame of every chunk (42_decoder.md R170, R174, R176 to R178). -/

namespace Sys2Proof.ChunkResults

open Sys2Proof.Machine Sys2Proof.ChunkRoundTrip Sys2Proof.DecoderChunk

/-! ## What a chunk leaves as it was -/

/-- A chunk that is answered by a next state ran on the selected decoder in CHUNKS, and wrote that decoder alone
(R170). -/
theorem exec_next {i : Instr} {s t : State} (h : exec i s = .next t) :
    ∃ d, s.decs[s.sel]? = some d ∧ d.phase = .chunks ∧ t = s.setDec s.sel (d.chunkEffect s.params i) := by
  rw [exec_eq] at h
  exact onChunk_next h

/-- The block is the same but for decoder `k`. -/
def OnlyDecoder (k : Nat) (s t : State) : Prop :=
  t.params = s.params ∧ t.encs = s.encs ∧ t.agenda = s.agenda ∧ t.sel = s.sel ∧ t.resets = s.resets ∧
  t.decs.length = s.decs.length ∧ ∀ j, j ≠ k → t.decs[j]? = s.decs[j]?

theorem onlyDecoder_setDec (s : State) (k : Nat) (d : Dec) : OnlyDecoder k s (s.setDec k d) :=
  ⟨rfl, rfl, rfl, rfl, rfl, List.length_set, fun _ hj => setDec_get_other hj⟩

/-! ## The statements -/

/-- Settles O9: the tags of RUN decode to runs of 1..62 (`decode_runTag`), and a run is the previous pixel again
(`repeatPixel_eq`). -/
theorem runResult : Obligations.RunResult := by
  refine ⟨?encoding, ?result⟩
  case encoding => exact fun v rest hv => decode_runTag hv rest
  case result =>
    intro s d n hd hp
    rw [exec_chunks hd hp, Dec.chunkEffect, repeatPixel_eq d n hp]

/-- Settles O11: the tags of DIFF decode field by field (`decode_diffTag`), and each channel moves modulo 256
(`addChannel_toNat`). -/
theorem diffResult : Obligations.DiffResult := by
  refine ⟨?encoding, ?result⟩
  case encoding => exact decode_diffTag
  case result =>
    intro s d dr dg db hd hp
    exact ⟨diffPixel d.pp dr dg db, addChannel_toNat _ _, addChannel_toNat _ _, addChannel_toNat _ _, rfl,
      exec_pixelChunk (i := .diff dr dg db) hd hp rfl⟩

/-- The nibbles of a byte, less their bias, as quotient and remainder (R87). -/
theorem biasedField_nibbles (u : Byte) :
    biasedField u 4 4 8 = (u.toNat / 16 : Nat) - 8 ∧ biasedField u 0 4 8 = (u.toNat % 16 : Nat) - 8 := by
  have hlt := u.isLt
  constructor
  · rw [biasedField, BitVec.extractLsb'_toNat, Nat.shiftRight_eq_div_pow]
    omega
  · rw [biasedField, BitVec.extractLsb'_toNat, Nat.shiftRight_zero]

/-- Settles O12: the tags of LUMA and the byte after them decode field by field (`decode_lumaTag`), and each channel
moves modulo 256 (`addChannel_toNat`). -/
theorem lumaResult : Obligations.LumaResult := by
  refine ⟨?encoding, ?result⟩
  case encoding =>
    intro fg6 u rest
    obtain ⟨hhi, hlo⟩ := biasedField_nibbles u
    rw [decode_lumaTag, hhi, hlo]
  case result =>
    intro s d dg drDg dbDg hd hp
    refine ⟨lumaPixel d.pp dg drDg dbDg, ?_, addChannel_toNat _ _, ?_, rfl,
      exec_pixelChunk (i := .luma dg drDg dbDg) hd hp rfl⟩
    · rw [add_assoc]; exact addChannel_toNat _ _
    · rw [add_assoc]; exact addChannel_toNat _ _

/-- Settles O13: the chunk takes its pixel (`chunkEffect_pixel`), which writes only the slot of that pixel's hash. -/
theorem pixelChunkFrame : Obligations.PixelChunkFrame := by
  intro i s t hi h
  obtain ⟨d, hd, hp, rfl⟩ := exec_next h
  obtain ⟨hparams, hencs, hagenda, hsel, hresets, hlen, hother⟩ :=
    onlyDecoder_setDec s s.sel (d.chunkEffect s.params i)
  refine ⟨hparams, hencs, hagenda, hsel, hresets, hlen, hother, d, _, hd, setDec_get_same hd, ?_⟩
  rw [chunkEffect_pixel _ _ _ hi]
  simp only [endChunk_width, endChunk_height, endChunk_channels, endChunk_colorspace, endChunk_status, endChunk_inpos,
    endChunk_output, endChunk_pp, endChunk_hist, takePixel_width, takePixel_height, takePixel_channels,
    takePixel_colorspace, takePixel_status, takePixel_inpos, takePixel_output, takePixel_pp, takePixel_hist,
    Dec.srcByte, endChunk_src, takePixel_src, true_and, implies_true]
  exact fun slot hs => readSlot_writeSlot_other _ _ hs

/-- Settles O14: a run writes the output, D.LEFT and the phase (`repeatPixel_eq`). -/
theorem runFrame : Obligations.RunFrame := by
  intro n s t h
  obtain ⟨d, hd, hp, rfl⟩ := exec_next h
  obtain ⟨hparams, hencs, hagenda, hsel, hresets, hlen, hother⟩ :=
    onlyDecoder_setDec s s.sel (d.chunkEffect s.params (.run n))
  refine ⟨hparams, hencs, hagenda, hsel, hresets, hlen, hother, d, _, hd, setDec_get_same hd, ?_⟩
  rw [Dec.chunkEffect, repeatPixel_eq d n hp]
  exact ⟨rfl, rfl, rfl, rfl, rfl, rfl, fun _ => rfl, rfl, fun _ => rfl, _, rfl⟩

/-- Settles O15: every chunk runs by `State.onChunk`, which asks for CHUNKS. -/
theorem chunkOutsideChunksPhaseRefused : Obligations.ChunkOutsideChunksPhaseRefused := by
  intro i s d hd hp
  rw [exec_eq, State.onChunk, hd]
  cases hq : d.phase with
  | chunks => exact absurd hq hp
  | idle | header | trailer | done => simp only [hq]

end Sys2Proof.ChunkResults
end

section
/-! The steps of a decoder (40_header_trailer.md R117, R121, 42_decoder.md R170, 60_exceptions.md R211 to R217): the
header read in two stretches, and what each step comes to when its bytes are there and when they end too early. -/

namespace Sys2Proof.DecoderSteps

open Sys2Proof.Machine Sys2Proof.HeaderTrailer

/-! ## Stretches of reads -/

theorem bind_assoc {α β γ : Type} (m : Read α) (f : α → Dec → Read β) (g : β → Dec → Read γ) :
    (m.bind f).bind g = m.bind fun v d => (f v d).bind g := by
  cases m <;> rfl

theorem got_bind {α β : Type} (v : α) (d : Dec) (f : α → Dec → Read β) : (Read.got v d).bind f = f v d := rfl

/-- The header's registers from the ten bytes after the magic (R117). -/
def acceptHeader (bs : List Byte) (d : Dec) : Read Dec :=
  match bs with
  | [w0, w1, w2, w3, h0, h1, h2, h3, ch, cs] =>
    .got { d with
      width := be32 w0 w1 w2 w3, height := be32 h0 h1 h2 h3, channels := ch, colorspace := cs
      left := pixelCount (be32 w0 w1 w2 w3) (be32 h0 h1 h2 h3)
      status := statusHeaderAccepted d.status
      phase := if pixelCount (be32 w0 w1 w2 w3) (be32 h0 h1 h2 h3) = 0 then .trailer else .chunks } d
  | _ => .failed .truncated d

/-- DecHeader reads four bytes, and after a matching magic ten more (R117). -/
theorem header_eq (d : Dec) :
    d.header = Read.settle ((d.inBytes 4).bind fun m d =>
      if m = magic then (d.inBytes 10).bind acceptHeader else .failed .badMagic d) := by
  simp only [Dec.header, Dec.inBE32, Dec.inBytes, bind_assoc, got_bind, acceptHeader]

/-- D.INPOS at the end of `src`, and the job ended TRUNCATED (R214). -/
def truncatedAtEnd (d : Dec) : Dec := ({ d with inpos := BitVec.ofNat 64 d.src.length } : Dec).fail .truncated

/-- Four bytes of another magic end the job (R212). -/
theorem header_badMagic {d : Dec} (hs : d.src.length < 2 ^ 64) (hl : d.inpos.toNat + 4 ≤ d.src.length)
    (hm : d.unread.take 4 ≠ magic) : d.header = ({ d with inpos := d.inpos + 4 } : Dec).fail .badMagic := by
  rw [header_eq, inBytes_got hs hl, got_bind, if_neg hm]
  rfl

/-- The unread bytes begin with a header: its registers are written (R117, R118). -/
theorem header_accepted {d : Dec} {w h : BitVec 32} {ch cs : Byte} {rest : List Byte} (hs : d.src.length < 2 ^ 64)
    (hu : d.unread = headerBytes w h ch cs ++ rest) :
    d.header = { d with
      width := w, height := h, channels := ch, colorspace := cs, left := pixelCount w h, inpos := d.inpos + 14
      status := statusHeaderAccepted d.status
      phase := if pixelCount w h = 0 then .trailer else .chunks } := by
  have hmagic : d.unread = magic ++ (be32Bytes w ++ be32Bytes h ++ [ch, cs] ++ rest) := by
    rw [hu]; simp only [headerBytes, List.append_assoc]
  have hne : magic ≠ [] := by decide
  obtain ⟨-, hafter⟩ := unread_append hs hmagic hne
  have hfour := inBytes_append hs hmagic
  have hten := inBytes_append (d := { d with inpos := d.inpos + BitVec.ofNat 64 magic.length }) hs hafter
  have hlen : (be32Bytes w ++ be32Bytes h ++ [ch, cs]).length = 10 := rfl
  rw [hlen] at hten
  have hpos : d.inpos + BitVec.ofNat 64 magic.length + BitVec.ofNat 64 10 = d.inpos + 14 := by
    rw [BitVec.add_assoc]; rfl
  rw [hpos] at hten
  rw [header_eq, show (4 : Nat) = magic.length from rfl, hfour, got_bind, if_pos rfl, hten, got_bind]
  simp only [be32Bytes, List.cons_append, List.nil_append, acceptHeader, be32_of_bytes, Read.settle]

/-- A header cut short ends the job TRUNCATED at the end of `src` (R214, R217). -/
theorem header_truncated {d : Dec} (hs : d.src.length < 2 ^ 64) (hp : d.inpos.toNat ≤ d.src.length)
    (h : d.unread.length < 4 ∨ (d.unread.take 4 = magic ∧ d.unread.length < 14)) : d.header = truncatedAtEnd d := by
  have hlen : d.unread.length = d.src.length - d.inpos.toNat := List.length_drop
  rw [header_eq]
  by_cases hfour : d.unread.length < 4
  · rw [inBytes_failed hs hp (by omega)]
    rfl
  · obtain ⟨hm, hlt⟩ := h.resolve_left hfour
    have hfit : d.inpos.toNat + 4 ≤ d.src.length := by omega
    have hpos := inpos_add hs hfit
    rw [inBytes_got hs hfit, got_bind, if_pos hm,
      inBytes_failed (d := { d with inpos := d.inpos + BitVec.ofNat 64 4 }) hs (by simp only [hpos]; omega)
        (by simp only [hpos]; omega)]
    rfl

/-- Eight bytes are read, then compared (R121). -/
theorem trailer_read {d : Dec} (hs : d.src.length < 2 ^ 64) (hl : d.inpos.toNat + 8 ≤ d.src.length) :
    d.trailer = { d with
      inpos := d.inpos + 8
      status := if d.unread.take 8 = terminator then statusEnd true .none d.status
        else statusEnd false .badTrailer d.status
      phase := .done } := by
  rw [Dec.trailer, inBytes_got hs hl]
  rfl

/-- A terminator cut short ends the job TRUNCATED at the end of `src` (R214, R217). -/
theorem trailer_truncated {d : Dec} (hs : d.src.length < 2 ^ 64) (hp : d.inpos.toNat ≤ d.src.length)
    (hl : d.unread.length < 8) : d.trailer = truncatedAtEnd d := by
  have hlen : d.unread.length = d.src.length - d.inpos.toNat := List.length_drop
  rw [Dec.trailer, inBytes_failed hs hp (by omega)]
  rfl

/-! ## The turns -/

theorem tick_dec_header {s : State} {k : Nat} {d : Dec} (hd : s.decs[k]? = some d) (hp : d.phase = .header) :
    tick (.dec k) s = .next (s.setDec k d.header) := by
  simp only [tick, tickDec, hd, hp]

theorem tick_dec_trailer {s : State} {k : Nat} {d : Dec} (hd : s.decs[k]? = some d) (hp : d.phase = .trailer) :
    tick (.dec k) s = .next (s.setDec k d.trailer) := by
  simp only [tick, tickDec, hd, hp]

theorem tick_dec_chunks {s : State} {k : Nat} {d : Dec} (hd : s.decs[k]? = some d) (hp : d.phase = .chunks) :
    tick (.dec k) s = decChunk k d s := by
  simp only [tick, tickDec, hd, hp]

/-- A turn in CHUNKS runs the chunk that the unread bytes decode to (R170). -/
theorem tick_dec_decoded {s : State} {k : Nat} {d : Dec} {i : Instr} {rest : List Byte} (hd : s.decs[k]? = some d)
    (hp : d.phase = .chunks) (hs : d.src.length < 2 ^ 64) (h : decode d.unread = .ok (i, rest)) :
    tick (.dec k) s =
      exec i { s.setDec k { d with inpos := d.inpos + BitVec.ofNat 64 (Instr.length i) } with sel := k } := by
  rw [tick_dec_chunks hd hp, decChunk, fetch_got hs h]

/-- A turn whose step ends the job TRUNCATED leaves the status fields of R211 and R214. -/
theorem tick_truncated {s : State} {k : Nat} {d : Dec} (h : tick (.dec k) s = .next (s.setDec k (truncatedAtEnd d))) :
    ∃ st : Byte, statusBusy st = false ∧ statusDone st = true ∧ statusOk st = false ∧ statusErr st = 4 ∧
      statusHdr st = statusHdr d.status ∧
      tick (.dec k) s = .next (s.setDec k { d with
        inpos := BitVec.ofNat 64 d.src.length, status := st, phase := .done }) := by
  obtain ⟨hbusy, hdone, hok, herr, hhdr⟩ := statusEnd_fields d.status .truncated false
  exact ⟨_, hbusy, hdone, hok, herr, hhdr, h⟩

/-! ## The statements -/

/-- Settles O16: the step is the decoder's turn, and the turn runs the decoded chunk (`tick_dec_decoded`). -/
theorem stepRunsDecodedChunk : Obligations.StepRunsDecodedChunk := by
  intro s k d i rest hd hp hs h
  refine ⟨?written, ?ready⟩
  case written =>
    intro more ha
    simp only [step, ha, runMove]
    exact tick_dec_decoded (s := { s with agenda := more }) hd hp hs h
  case ready =>
    intro ha hr
    simp only [step, ha, hr]
    exact tick_dec_decoded hd hp hs h

/-- Settles O18: the fetch fails at the end of `src` (`fetch_failed`), before any chunk is run. -/
theorem truncatedChunkEndsJob : Obligations.TruncatedChunkEndsJob := by
  intro s k d hd hp hs hle h
  apply tick_truncated
  rw [tick_dec_chunks hd hp, decChunk, fetch_failed hs hle h]
  rfl

/-- Settles O19: the unread bytes begin with a header (`header_accepted`), and the pixel count is the exact product. -/
theorem headerAccepted : Obligations.HeaderAccepted := by
  intro s k d w h ch cs rest hd hp hs hu
  refine ⟨pixelCount w h, pixelCount_toNat w h, ?_⟩
  rw [tick_dec_header hd hp, header_accepted hs hu]
  simp only [pixelCount_eq_zero_iff]
  rfl

/-- Settles O20: the magic is compared after four bytes (`header_badMagic`). -/
theorem badMagicEndsJob : Obligations.BadMagicEndsJob := by
  intro s k d hd hp hs hl hm
  obtain ⟨hbusy, hdone, hok, herr, hhdr⟩ := statusEnd_fields d.status .badMagic false
  refine ⟨_, hbusy, hdone, hok, herr, hhdr, ?_⟩
  rw [tick_dec_header hd hp, header_badMagic hs hl hm]
  rfl

/-- Settles O21: one of the header's two stretches of reads fails (`header_truncated`). -/
theorem truncatedHeaderEndsJob : Obligations.TruncatedHeaderEndsJob := by
  intro s k d hd hp hs hle h
  apply tick_truncated
  rw [tick_dec_header hd hp, header_truncated hs hle h]

/-- Settles O22: all eight bytes are read (`trailer_read`), and the comparison gives the status. -/
theorem trailerChecked : Obligations.TrailerChecked := by
  intro s k d hd hp hs hl
  rw [tick_dec_trailer hd hp, trailer_read hs hl]
  by_cases hm : d.unread.take 8 = terminator
  · obtain ⟨hbusy, hdone, hok, herr, hhdr⟩ := statusEnd_fields d.status .none true
    rw [if_pos hm]
    exact ⟨_, hbusy, hdone, hhdr, fun _ => ⟨hok, herr⟩, fun hn => absurd hm hn, rfl⟩
  · obtain ⟨hbusy, hdone, hok, herr, hhdr⟩ := statusEnd_fields d.status .badTrailer false
    rw [if_neg hm]
    exact ⟨_, hbusy, hdone, hhdr, fun hy => absurd hy hm, fun _ => ⟨hok, herr⟩, rfl⟩

/-- Settles O23: the reads fail before any byte is compared (`trailer_truncated`). -/
theorem truncatedTrailerEndsJob : Obligations.TruncatedTrailerEndsJob := by
  intro s k d hd hp hs hle hl
  apply tick_truncated
  rw [tick_dec_trailer hd hp, trailer_truncated hs hle hl]

end Sys2Proof.DecoderSteps
end

section
/-! Which chunk the encoder selects for a pixel (41_encoder.md R133, R135 to R139, R142, R145): the differences, the five
branches of the selection, and for every chunk that can be selected a pixel that it is selected for. -/

namespace Sys2Proof.Selection

open Sys2Proof.Machine

/-! ## The differences -/

/-- A value that a signed byte holds is its own signed reading (R12). -/
theorem s8_of_mem {v : Int} (lo : -128 ≤ v) (hi : v ≤ 127) : s8 v = v := by
  unfold s8; split <;> omega

/-- Under either setting a difference that a signed byte holds is the plain one (R133). -/
theorem deltaOf_of_mem (m : DeltaArith) {v : Int} (lo : -128 ≤ v) (hi : v ≤ 127) : deltaOf m v = v := by
  cases m
  case wrap8 => exact s8_of_mem lo hi
  case exact => rfl

/-- A difference that falls outside -50..50 either way round the byte is outside it under both settings (R133). -/
theorem deltaOf_far (m : DeltaArith) {v : Int} (h : v = 100 ∨ v = -156) : 50 < deltaOf m v ∨ deltaOf m v < -50 := by
  cases m <;> rcases h with rfl | rfl <;> decide

/-- Settles O32: under WRAP8 each difference is the signed reading of the plain one (`s8_spec`), under EXACT it is the
plain one. -/
theorem deltasOfPixels : Obligations.DeltasOfPixels := by
  intro p pp
  refine ⟨?wrap8, rfl, rfl, rfl, rfl, rfl⟩
  case wrap8 =>
    obtain ⟨hr₁, hr₂, hr₃⟩ := s8_spec ((p.r.toNat : Int) - pp.r.toNat)
    obtain ⟨hg₁, hg₂, hg₃⟩ := s8_spec ((p.g.toNat : Int) - pp.g.toNat)
    obtain ⟨hb₁, hb₂, hb₃⟩ := s8_spec ((p.b.toNat : Int) - pp.b.toNat)
    obtain ⟨hrg₁, hrg₂, hrg₃⟩ := s8_spec ((deltas .wrap8 p pp).dr - (deltas .wrap8 p pp).dg)
    obtain ⟨hbg₁, hbg₂, hbg₃⟩ := s8_spec ((deltas .wrap8 p pp).db - (deltas .wrap8 p pp).dg)
    refine ⟨?_, hr₃, hg₃, hb₃, hrg₃, hbg₃⟩
    simp only [List.forall_mem_cons, List.not_mem_nil, false_imp_iff, implies_true, and_true]
    exact ⟨⟨hr₁, hr₂⟩, ⟨hg₁, hg₂⟩, ⟨hb₁, hb₂⟩, ⟨hrg₁, hrg₂⟩, hbg₁, hbg₂⟩

/-- Wrapping a signed byte less a `dg` that LUMA can hold moves no value into or out of -8..7 (R133). -/
theorem s8_sub_mem_iff {x g : Int} (hx : -128 ≤ x ∧ x ≤ 127) (hg : -32 ≤ g ∧ g ≤ 31) :
    (-8 ≤ s8 (x - g) ∧ s8 (x - g) ≤ 7) ↔ (-8 ≤ x - g ∧ x - g ≤ 7) := by
  have h := s8_spec (x - g)
  omega

/-- Settles O33: both relative differences are signed bytes less `dg` (`s8_sub_mem_iff`). -/
theorem lumaConditionNeedsNoOuterWrap : Obligations.LumaConditionNeedsNoOuterWrap := by
  intro p pp d hg
  have hr := s8_spec ((p.r.toNat : Int) - pp.r.toNat)
  have hb := s8_spec ((p.b.toNat : Int) - pp.b.toNat)
  exact ⟨s8_sub_mem_iff ⟨hr.1, hr.2.1⟩ hg, s8_sub_mem_iff ⟨hb.1, hb.2.1⟩ hg⟩

/-! ## The branches of the selection -/

section
variable {P : Params} {h : History} {pp p : Pixel}

theorem selectChunk_of_hit (hit : readSlot h (pHash P p) = p) : selectChunk P h pp p = .index (pHash P p) := if_pos hit

theorem selectChunk_of_fitsDiff (hit : readSlot h (pHash P p) ≠ p)
    (hd : fitsDiff p pp (deltas P.deltaArith p pp) = true) :
    selectChunk P h pp p =
      .diff (deltas P.deltaArith p pp).dr (deltas P.deltaArith p pp).dg (deltas P.deltaArith p pp).db := by
  simp only [selectChunk, if_neg hit, if_pos hd]

theorem selectChunk_of_fitsLuma (hit : readSlot h (pHash P p) ≠ p)
    (hd : ¬ fitsDiff p pp (deltas P.deltaArith p pp) = true) (hl : fitsLuma p pp (deltas P.deltaArith p pp) = true) :
    selectChunk P h pp p =
      .luma (deltas P.deltaArith p pp).dg (deltas P.deltaArith p pp).drDg (deltas P.deltaArith p pp).dbDg := by
  simp only [selectChunk, if_neg hit, if_neg hd, if_pos hl]

/-- With another alpha neither DIFF nor LUMA fits, so RGBA is left (R138). -/
theorem selectChunk_of_alpha (hit : readSlot h (pHash P p) ≠ p) (ha : p.a ≠ pp.a) :
    selectChunk P h pp p = .rgba p.r p.g p.b p.a := by
  have hd : ¬ fitsDiff p pp (deltas P.deltaArith p pp) = true := fun hd => ha (fitsDiff_iff.mp hd).1
  have hl : ¬ fitsLuma p pp (deltas P.deltaArith p pp) = true := fun hl => ha (fitsLuma_iff.mp hl).1
  simp only [selectChunk, if_neg hit, if_neg hd, if_neg hl, if_pos ha]

theorem selectChunk_of_nothing_else (hit : readSlot h (pHash P p) ≠ p)
    (hd : ¬ fitsDiff p pp (deltas P.deltaArith p pp) = true)
    (hl : ¬ fitsLuma p pp (deltas P.deltaArith p pp) = true) (ha : p.a = pp.a) :
    selectChunk P h pp p = .rgb p.r p.g p.b := by
  simp only [selectChunk, if_neg hit, if_neg hd, if_neg hl, ha, ne_eq, not_true_eq_false, if_false]

end

/-- Settles O34: one branch of the selection for each clause. -/
theorem selectionPriority : Obligations.SelectionPriority := by
  intro P h pp p d hit diff luma
  refine ⟨?index, ?diff, ?luma, ?rgba, ?rgb⟩
  case index => exact selectChunk_of_hit
  case diff => exact fun hn hd => selectChunk_of_fitsDiff hn (fitsDiff_iff.mpr hd)
  case luma =>
    exact fun hn hd hl => selectChunk_of_fitsLuma hn (fun hf => hd (fitsDiff_iff.mp hf)) (fitsLuma_iff.mpr hl)
  case rgba => exact selectChunk_of_alpha
  case rgb =>
    exact fun hn hd hl => selectChunk_of_nothing_else hn (fun hf => hd (fitsDiff_iff.mp hf))
      fun hf => hl (fitsLuma_iff.mp hf)

/-! ## What is never selected -/

/-- A LUMA's differences are those of DIFF or larger: one that DIFF could spell is not selected (R137, R142). -/
theorem selected_luma_not_diff {P : Params} {h : History} {pp p : Pixel} {dg drDg dbDg : Int}
    (hs : selectChunk P h pp p = .luma dg drDg dbDg) :
    ¬ ((-2 ≤ dg ∧ dg ≤ 1) ∧ (-2 ≤ drDg + dg ∧ drDg + dg ≤ 1) ∧ (-2 ≤ dbDg + dg ∧ dbDg + dg ≤ 1)) := by
  rcases selectChunk_cases P h pp p with ⟨-, e⟩ | ⟨-, e⟩ | ⟨hd, hl, e⟩ | ⟨-, e⟩ | ⟨-, e⟩ <;> rw [e] at hs <;> cases hs
  rintro ⟨hg, hr, hb⟩
  obtain ⟨er, eb⟩ := fitsLuma_exact _ _ _ hl
  have hfit := fitsDiff_iff.mpr ⟨(fitsLuma_iff.mp hl).1, er ▸ hr, hg, eb ▸ hb⟩
  rw [hd] at hfit
  cases hfit

theorem selected_rgba_alpha {P : Params} {h : History} {pp p : Pixel} {r g b a : Byte}
    (hs : selectChunk P h pp p = .rgba r g b a) : a ≠ pp.a := by
  rcases selectChunk_cases P h pp p with ⟨-, e⟩ | ⟨-, e⟩ | ⟨-, -, e⟩ | ⟨ha, e⟩ | ⟨-, e⟩ <;> rw [e] at hs <;> cases hs
  exact ha

/-- DIFF 0, 0, 0 stands for the previous pixel (R136). -/
theorem diffPixel_zero (pp : Pixel) : diffPixel pp 0 0 0 = pp := by
  have hzero (c : Byte) : addChannel c 0 = c := addChannel_of_mod c c 0 (by simp)
  simp only [diffPixel, hzero]

/-- Settles O35: the selected chunk is well-formed, no RUN, and stands for the pixel (`selectChunk_spec`), so it is no
DIFF 0, 0, 0 and an INDEX names a slot that holds the pixel. -/
theorem neverEmitted : Obligations.NeverEmitted := by
  intro P h pp p hne
  obtain ⟨hpixel, hstands, hwf⟩ := selectChunk_spec P h pp p
  refine ⟨hwf, ?run, ?zero, fun _ _ _ => selected_luma_not_diff, fun _ _ _ _ => selected_rgba_alpha, ?index⟩
  case run =>
    intro n hs
    rw [hs] at hpixel
    cases hpixel
  case zero =>
    intro hs
    rw [hs] at hstands
    exact hne (hstands.symm.trans (diffPixel_zero pp))
  case index =>
    intro i hs
    rw [hs] at hstands
    exact hstands

/-! ## A pixel for every chunk that can be selected -/

/-- The middle of the channels' range: every difference of DIFF and LUMA can be taken from it without a wrap. -/
def gray : Pixel := { r := 128, g := 128, b := 128, a := 255 }

theorem addChannel_gray {v : Int} (lo : -128 ≤ v) (hi : v ≤ 127) : ((addChannel 128 v).toNat : Int) = 128 + v := by
  have h := addChannel_toNat 128 v
  have h128 : (128 : Byte).toNat = 128 := rfl
  omega

/-- A cache in whose every slot stands `pp`: no other pixel is found there. -/
def historyOf (pp : Pixel) : History := Vector.replicate 64 pp

theorem readSlot_historyOf (pp : Pixel) (i : Fin 64) : readSlot (historyOf pp) i = pp := by
  simp [readSlot, historyOf, Vector.get_eq_getElem]

theorem miss_of_ne {P : Params} {pp p : Pixel} (h : p ≠ pp) : readSlot (historyOf pp) (pHash P p) ≠ p := by
  rw [readSlot_historyOf]
  exact h.symm

/-- The differences between `gray` and a pixel that small differences give are those differences, under either setting
(R133). -/
theorem deltas_gray (m : DeltaArith) {dr dg db : Int} (hr : -50 ≤ dr ∧ dr ≤ 50) (hg : -50 ≤ dg ∧ dg ≤ 50)
    (hb : -50 ≤ db ∧ db ≤ 50) :
    deltas m (diffPixel gray dr dg db) gray = { dr := dr, dg := dg, db := db, drDg := dr - dg, dbDg := db - dg } := by
  have hplain {v : Int} (h : -50 ≤ v ∧ v ≤ 50) :
      deltaOf m (((addChannel 128 v).toNat : Int) - (128 : Byte).toNat) = v := by
    have hv := addChannel_gray (v := v) (by omega) (by omega)
    have h128 : (128 : Byte).toNat = 128 := rfl
    rw [hv, h128, deltaOf_of_mem m (by omega) (by omega)]
    omega
  simp only [deltas, diffPixel, gray, hplain hr, hplain hg, hplain hb]
  rw [deltaOf_of_mem m (by omega) (by omega), deltaOf_of_mem m (by omega) (by omega)]

/-- A pixel that small differences give is not `gray`, unless they are all 0. -/
theorem diffPixel_gray_ne {dr dg db : Int} (hr : -50 ≤ dr ∧ dr ≤ 50) (hg : -50 ≤ dg ∧ dg ≤ 50)
    (hb : -50 ≤ db ∧ db ≤ 50) (hne : ¬ (dr = 0 ∧ dg = 0 ∧ db = 0)) : diffPixel gray dr dg db ≠ gray := by
  intro h
  have hd := deltas_gray .exact hr hg hb
  have hself : deltas .exact gray gray = { dr := 0, dg := 0, db := 0, drDg := 0, dbDg := 0 } := by decide
  rw [h, hself] at hd
  cases hd
  exact hne ⟨rfl, rfl, rfl⟩

/-- The selection gives the chunk for some pixel that differs from the previous one. -/
def Selectable (P : Params) (i : Instr) : Prop :=
  ∃ (h : History) (pp p : Pixel), p ≠ pp ∧ selectChunk P h pp p = i

/-- A pixel whose red is 100 off: no DIFF or LUMA reaches it (R136, R137). -/
theorem selectable_rgb (P : Params) (r g b : Byte) : Selectable P (.rgb r g b) := by
  have hred : (r.toNat : Int) - (r - 100).toNat = 100 ∨ (r.toNat : Int) - (r - 100).toNat = -156 := by bv_omega
  have hfar := deltaOf_far P.deltaArith hred
  have hg : deltaOf P.deltaArith ((g.toNat : Int) - g.toNat) = 0 := by
    rw [sub_self, deltaOf_of_mem _ (by omega) (by omega)]
  let p : Pixel := { r := r, g := g, b := b, a := 255 }
  let pp : Pixel := { r := r - 100, g := g, b := b, a := 255 }
  have hne : p ≠ pp := by
    intro h
    have hr : r = r - 100 := congrArg Pixel.r h
    bv_omega
  have hd : ¬ fitsDiff p pp (deltas P.deltaArith p pp) = true := by
    rw [fitsDiff_iff]
    simp only [deltas, p, pp]
    omega
  have hl : ¬ fitsLuma p pp (deltas P.deltaArith p pp) = true := by
    intro hl
    have hexact := (fitsLuma_exact _ _ _ hl).1
    rw [fitsLuma_iff] at hl
    simp only [deltas, p, pp, hg] at hexact hl
    omega
  exact ⟨historyOf pp, pp, p, hne, selectChunk_of_nothing_else (miss_of_ne hne) hd hl rfl⟩

/-- A pixel whose alpha alone differs (R138). -/
theorem selectable_rgba (P : Params) (r g b a : Byte) : Selectable P (.rgba r g b a) := by
  let p : Pixel := { r := r, g := g, b := b, a := a }
  let pp : Pixel := { r := r, g := g, b := b, a := a + 1 }
  have ha : p.a ≠ pp.a := by
    simp only [p, pp]
    bv_omega
  have hne : p ≠ pp := fun h => ha (congrArg Pixel.a h)
  exact ⟨historyOf pp, pp, p, hne, selectChunk_of_alpha (miss_of_ne hne) ha⟩

/-- A pixel of hash `i` under the default formula: 3 has the inverse 43 modulo 64 (R9). -/
theorem exists_defaultHash : ∀ i : Fin 64,
    defaultHash { r := BitVec.ofNat 8 (43 * i % 64), g := 0, b := 0, a := 0 } = i := by decide

theorem selectable_index {P : Params} (hP : P.hash = .default) (i : Fin 64) : Selectable P (.index i) := by
  let p : Pixel := { r := BitVec.ofNat 8 (43 * i % 64), g := 0, b := 0, a := 0 }
  have hne : p ≠ gray := fun h => absurd (congrArg Pixel.a h) (by simp [p, gray])
  have hi : pHash P p = i := by
    rw [pHash, hP]
    exact exists_defaultHash i
  have hs : selectChunk P (historyOf p) gray p = .index (pHash P p) := selectChunk_of_hit (readSlot_historyOf p _)
  exact ⟨historyOf p, gray, p, hne, hi ▸ hs⟩

theorem selectable_diff (P : Params) {dr dg db : Int} (hr : -2 ≤ dr ∧ dr ≤ 1) (hg : -2 ≤ dg ∧ dg ≤ 1)
    (hb : -2 ≤ db ∧ db ≤ 1) (hne : ¬ (dr = 0 ∧ dg = 0 ∧ db = 0)) : Selectable P (.diff dr dg db) := by
  have hp := diffPixel_gray_ne (by omega) (by omega) (by omega) hne
  have hdeltas := deltas_gray P.deltaArith (dr := dr) (dg := dg) (db := db) (by omega) (by omega) (by omega)
  have hfit : fitsDiff (diffPixel gray dr dg db) gray (deltas P.deltaArith (diffPixel gray dr dg db) gray) = true := by
    rw [fitsDiff_iff, hdeltas]
    exact ⟨rfl, hr, hg, hb⟩
  have hs := selectChunk_of_fitsDiff (miss_of_ne hp) hfit
  rw [hdeltas] at hs
  exact ⟨historyOf gray, gray, diffPixel gray dr dg db, hp, hs⟩

theorem selectable_luma (P : Params) {dg drDg dbDg : Int} (hg : -32 ≤ dg ∧ dg ≤ 31) (hr : -8 ≤ drDg ∧ drDg ≤ 7)
    (hb : -8 ≤ dbDg ∧ dbDg ≤ 7)
    (hn : ¬ ((-2 ≤ dg ∧ dg ≤ 1) ∧ (-2 ≤ drDg + dg ∧ drDg + dg ≤ 1) ∧ (-2 ≤ dbDg + dg ∧ dbDg + dg ≤ 1))) :
    Selectable P (.luma dg drDg dbDg) := by
  let p := diffPixel gray (drDg + dg) dg (dbDg + dg)
  have hp : p ≠ gray := diffPixel_gray_ne (by omega) (by omega) (by omega) (by omega)
  have hdeltas : deltas P.deltaArith p gray =
      { dr := drDg + dg, dg := dg, db := dbDg + dg, drDg := drDg + dg - dg, dbDg := dbDg + dg - dg } :=
    deltas_gray P.deltaArith (by omega) (by omega) (by omega)
  have hdiff : ¬ fitsDiff p gray (deltas P.deltaArith p gray) = true := by
    rw [fitsDiff_iff, hdeltas]
    exact fun ⟨_, hr', hg', hb'⟩ => hn ⟨hg', hr', hb'⟩
  have hluma : fitsLuma p gray (deltas P.deltaArith p gray) = true := by
    rw [fitsLuma_iff, hdeltas]
    simp only [add_sub_cancel_right]
    exact ⟨rfl, hg, hr, hb⟩
  have hs := selectChunk_of_fitsLuma (miss_of_ne hp) hdiff hluma
  rw [hdeltas] at hs
  simp only [add_sub_cancel_right] at hs
  exact ⟨historyOf gray, gray, p, hp, hs⟩

/-- Settles O57: what is selected is in R101's list (`neverEmitted`), and every chunk of it but DIFF 0, 0, 0 is selected
for some pixel (`Selectable`). -/
theorem selectableChunks : Obligations.SelectableChunks := by
  intro P i hindex
  refine ⟨?listed, ?selected⟩
  case listed =>
    rintro ⟨h, pp, p, hne, rfl⟩
    obtain ⟨hwf, -, hzero, hluma, -, -⟩ := neverEmitted P h pp p hne
    exact ⟨hwf, (selectChunk_spec P h pp p).1, hzero, hluma⟩
  case selected =>
    rintro ⟨hwf, hpixel, hzero, hluma⟩
    cases i with
    | rgb r g b => exact selectable_rgb P r g b
    | rgba r g b a => exact selectable_rgba P r g b a
    | run n => cases hpixel
    | index slot => exact selectable_index (hindex slot rfl) slot
    | diff dr dg db =>
      simp only [wellFormed, Bool.and_eq_true, inRange_iff] at hwf
      obtain ⟨⟨hr, hg⟩, hb⟩ := hwf
      exact selectable_diff P hr hg hb fun ⟨er, eg, eb⟩ => hzero (by rw [er, eg, eb])
    | luma dg drDg dbDg =>
      simp only [wellFormed, Bool.and_eq_true, inRange_iff] at hwf
      obtain ⟨⟨hg, hr⟩, hb⟩ := hwf
      exact selectable_luma P hg hr hb (hluma dg drDg dbDg rfl)

end Sys2Proof.Selection
end

section
/-! The bytes of a run (41_encoder.md R132, R134, R143), by induction on its repetitions. -/

namespace Sys2Proof.RunBytes

open Sys2Proof.Machine Sys2Proof.EncoderPixel

/-- How many full RUN chunks have gone out after `m` repetitions: 62 each, the last repetition stays pending (R143). -/
def fullRuns (m : Nat) : Nat := (m - 1) / 62

/-- `x` is `e` after `m` repetitions of its previous pixel (R132, R143). -/
structure Repeated (e : Enc) (m : Nat) (x : Enc) : Prop where
  pp : x.pp = e.pp
  hist : x.hist = e.hist
  channels : x.channels = e.channels
  output : x.output = e.output ++ List.replicate (fullRuns m) 0xFD
  run : x.run.toNat = m - 62 * fullRuns m + 1

theorem repeated_one {e : Enc} (P : Params) {q : Pixel} (hr : e.run = 0) (hq : formPixel e.channels q = e.pp) :
    Repeated e 1 (Enc.pixel P q e) := by
  rw [pixel_of_eq P hq, continueRun_of_zero hr]
  exact ⟨rfl, rfl, rfl, (List.append_nil _).symm, rfl⟩

/-- One more repetition counts up, or at the cap sends 62 of them out (R132). -/
theorem Repeated.succ {e x : Enc} {m : Nat} (P : Params) {q : Pixel} (hm : 1 ≤ m) (hq : formPixel e.channels q = e.pp)
    (h : Repeated e m x) : Repeated e (m + 1) (Enc.pixel P q x) := by
  obtain ⟨hpp, hhist, hch, hout, hrun⟩ := h
  have hrun0 : x.run ≠ 0 := by
    intro h0
    rw [h0] at hrun
    cases hrun
  rw [pixel_of_eq P (by rw [hch, hpp, hq])]
  by_cases hcap : x.run = 63
  · have hfull : fullRuns (m + 1) = fullRuns m + 1 ∧ m + 1 - 62 * fullRuns (m + 1) = 1 := by
      rw [hcap] at hrun
      simp only [fullRuns] at hrun ⊢
      have h63 : (63 : BitVec 7).toNat = 63 := rfl
      omega
    rw [continueRun_at_cap hcap]
    refine ⟨hpp, hhist, hch, ?_, ?_⟩
    · rw [countPixel_output, hout, hfull.1, List.replicate_succ', List.append_assoc]
    · rw [hfull.2]; rfl
  · have hne : x.run.toNat ≠ 63 := fun h63 => hcap (BitVec.eq_of_toNat_eq h63)
    have hfull : fullRuns (m + 1) = fullRuns m ∧ x.run.toNat < 63 := by
      simp only [fullRuns] at hrun ⊢
      omega
    rw [continueRun_below_cap hrun0 hcap]
    refine ⟨hpp, hhist, hch, ?_, ?_⟩
    · rw [countPixel_output, hout, hfull.1]
    · have hsucc : (x.run + 1).toNat = x.run.toNat + 1 := by bv_omega
      rw [countPixel_run, hsucc, hrun, hfull.1]
      simp only [fullRuns]
      omega

theorem repeated_iterate {e : Enc} (P : Params) {q : Pixel} (hr : e.run = 0) (hq : formPixel e.channels q = e.pp)
    {m : Nat} (hm : 1 ≤ m) : Repeated e m ((Enc.pixel P q)^[m] e) := by
  induction m, hm using Nat.le_induction with
  | base => exact repeated_one P hr hq
  | succ m hm ih =>
    rw [Function.iterate_succ_apply']
    exact ih.succ P hm hq

/-- Settles O37: the repetitions leave the full runs' bytes and a pending run (`repeated_iterate`), and the flush emits
its byte (`flushRun_eq`). -/
theorem runOfRepetitionsBytes : Obligations.RunOfRepetitionsBytes := by
  intro P q e m hm hr hq
  obtain ⟨hpp, hhist, -, hout, hrun⟩ := repeated_iterate P hr hq hm
  have hlast : 1 ≤ m - 62 * fullRuns m ∧ m - 62 * fullRuns m ≤ 62 := by
    simp only [fullRuns]
    omega
  have htwo : (2 : BitVec 7) ≤ ((Enc.pixel P q)^[m] e).run := by bv_omega
  have hpending : ((Enc.pixel P q)^[m] e).pendingBytes = [0xC0 ||| BitVec.ofNat 8 (m - 62 * fullRuns m - 1)] := by
    have hne : ((Enc.pixel P q)^[m] e).run ≠ 0 := by bv_omega
    rw [Enc.pendingBytes, if_neg hne]
    congr 2
    bv_omega
  simp only [flushRun_eq _ (.inr htwo)]
  exact ⟨by rw [hout, hpending]; rfl, Finset.mem_Icc.mpr hlast, trivial, hpp, hhist⟩

end Sys2Proof.RunBytes
end

section
/-! The HOST's side of the block, waiting, and hardware reset (10_state.md R45, R46, R50, R51, 60_exceptions.md R221, R222,
70_reset_and_hazards.md R240, R241). -/

namespace Sys2Proof.HostPort

open Sys2Proof.Machine

/-! ## Commands and reads -/

/-- Settles O17: the first move is run on the block without it, and with none written down the ready engine moves. -/
theorem stepTakesTheFirstMove : Obligations.StepTakesTheFirstMove := by
  intro s more
  refine ⟨?command, ?turn, ?access, ?ready⟩
  case command => intro c ha; simp only [step, ha, runMove]
  case turn => intro e ha; simp only [step, ha, runMove]
  case access => intro addr data c hc ha; simp only [step, ha, runMove, busAccess, hc]
  case ready => intro ha e he; simp only [step, ha, he]

/-- Settles O26: a start command looks at the phase, and takes IDLE and DONE only. -/
theorem startWhileBusyRefused : Obligations.StartWhileBusyRefused := by
  refine ⟨?encoder, ?decoder⟩
  case encoder =>
    intro s k e w h ch cs he hp
    rcases hp with hp | hp <;> simp only [hostCmd, encStartCmd, he, hp]
  case decoder =>
    intro s k d src hd hp
    rcases hp with hp | hp | hp <;> simp only [hostCmd, decStartCmd, hd, hp]

theorem encReadReg_toNat (e : Enc) (r : EncReg) :
    (e.readReg r).toNat =
      match r with
      | .width => e.width.toNat | .height => e.height.toNat | .channels => e.channels.toNat
      | .colorspace => e.colorspace.toNat | .left => e.left.toNat | .outpos => e.outpos.toNat
      | .status => e.status.toNat := by
  cases r with
  | left | outpos => rfl
  | width | height | channels | colorspace | status => exact BitVec.toNat_setWidth_of_le (by decide)

theorem decReadReg_toNat (d : Dec) (r : DecReg) :
    (d.readReg r).toNat =
      match r with
      | .width => d.width.toNat | .height => d.height.toNat | .channels => d.channels.toNat
      | .colorspace => d.colorspace.toNat | .left => d.left.toNat | .inpos => d.inpos.toNat
      | .status => d.status.toNat := by
  cases r with
  | left | inpos => rfl
  | width | height | channels | colorspace | status => exact BitVec.toNat_setWidth_of_le (by decide)

/-- A read that finds its engine leaves the block as it was (R45). -/
theorem readCmd_of_some {s : State} {r : HostReg} {v : BitVec 64} (h : s.hostRead r = some v) :
    hostCmd (.read r) s = .next s := by
  simp only [hostCmd, readCmd, h]

/-- Settles O28: a read finds the engine, and zero-extension keeps the register's value. -/
theorem hostReadsHaveNoEffect : Obligations.HostReadsHaveNoEffect := by
  refine ⟨?encoder, ?decoder⟩
  case encoder =>
    intro s k e r he
    have hread : s.hostRead (.enc k r) = some (e.readReg r) := by simp only [State.hostRead, he, Option.map_some]
    exact ⟨readCmd_of_some hread, _, hread, encReadReg_toNat e r⟩
  case decoder =>
    intro s k d r hd
    have hread : s.hostRead (.dec k r) = some (d.readReg r) := by simp only [State.hostRead, hd, Option.map_some]
    exact ⟨readCmd_of_some hread, _, hread, decReadReg_toNat d r⟩

/-! ## Waiting -/

/-- Settles O38: the turn of an engine looks at its phase, and in PIXELS at its input. -/
theorem waitingEnginesDoNothing : Obligations.WaitingEnginesDoNothing := by
  refine ⟨?encoder, ?decoder⟩
  case encoder =>
    intro s k e he hw
    rcases hw with ⟨hp, hi⟩ | hp | hp
    · simp only [tick, tickEnc, he, hp, hi]
    · simp only [tick, tickEnc, he, hp]
    · simp only [tick, tickEnc, he, hp]
  case decoder =>
    intro s k d hd hp
    rcases hp with hp | hp <;> simp only [tick, tickDec, hd, hp]

/-! ## Reset -/

/-- The values of R50, which are the same after every reset. -/
theorem encAfterReset_values (pp : Pixel) (hist : History) (run : BitVec 7) :
    let e := Enc.afterReset pp hist run
    e.phase = .idle ∧ e.status = 0 ∧ e.width = 0 ∧ e.height = 0 ∧ e.channels = 0 ∧ e.colorspace = 0 ∧ e.left = 0 ∧
    e.outpos = 0 ∧ e.output = [] ∧ e.input = [] := ⟨rfl, rfl, rfl, rfl, rfl, rfl, rfl, rfl, rfl, rfl⟩

/-- The values of R51, which are the same after every reset. -/
theorem decAfterReset_values (pp : Pixel) (hist : History) :
    let d := Dec.afterReset pp hist
    d.phase = .idle ∧ d.status = 0 ∧ d.width = 0 ∧ d.height = 0 ∧ d.channels = 0 ∧ d.colorspace = 0 ∧ d.left = 0 ∧
    d.inpos = 0 ∧ d.output = [] ∧ d.src = [] := ⟨rfl, rfl, rfl, rfl, rfl, rfl, rfl, rfl, rfl, rfl⟩

/-- The one encoder of the block after reset. -/
theorem mem_reset_encs {e : Enc} (h : e ∈ State.reset.encs) :
    e = Enc.afterReset .zero (Vector.replicate 64 .zero) 0 := List.mem_singleton.mp h

/-- The one decoder of the block after reset. -/
theorem mem_reset_decs {d : Dec} (h : d ∈ State.reset.decs) :
    d = Dec.afterReset .zero (Vector.replicate 64 .zero) := List.mem_singleton.mp h

/-- Settles O39: each kind has one engine, with the values of a reset; no engine is ready, so the block waits. -/
theorem resetValues : Obligations.ResetValues := by
  refine ⟨?encoders, ?decoders, rfl, rfl, rfl, rfl⟩
  case encoders =>
    intro e he
    rw [mem_reset_encs he]
    exact encAfterReset_values _ _ _
  case decoders =>
    intro d hd
    rw [mem_reset_decs hd]
    exact decAfterReset_values _ _

/-- Settles O40: the reset is run on the block without that move, and writes every engine afresh. -/
theorem hardwareResetFromAnyState : Obligations.HardwareResetFromAnyState := by
  intro s more ha
  have hstep : step s = .next (State.hardReset { s with agenda := more }) := by simp only [step, ha, runMove]
  refine ⟨_, hstep, rfl, rfl, List.length_mapIdx, List.length_mapIdx, ?encoders, ?decoders⟩
  case encoders =>
    intro e he
    obtain ⟨k, hk, rfl⟩ := List.mem_mapIdx.mp he
    exact encAfterReset_values _ _ _
  case decoders =>
    intro d hd
    obtain ⟨k, hk, rfl⟩ := List.mem_mapIdx.mp hd
    exact decAfterReset_values _ _

end Sys2Proof.HostPort
end

section
/-! The encoder's invariant and the bound on its output (10_state.md R29, R31, R42, R53, 30_encoding.md R97, 41_encoder.md
R131): what one `EncPixel` comes to, and each change of an encoder keeping both. -/

namespace Sys2Proof.EncoderInvariant

open Sys2Proof.Machine Sys2Proof.HeaderTrailer Sys2Proof.EncoderPixel Sys2Proof.HostPort

/-! ## One pixel -/

/-- The run counter is one that R53 allows. -/
def RunOk (r : BitVec 7) : Prop := r = 0 ∨ (2 ≤ r ∧ r ≤ 63)

theorem RunOk.flushable {r : BitVec 7} (h : RunOk r) : r = 0 ∨ 2 ≤ r := h.imp_right And.left

/-- The bytes that a pending run still owes (R134). -/
def owed (r : BitVec 7) : Nat := if r = 0 then 0 else 1

theorem pendingBytes_length (e : Enc) : e.pendingBytes.length = owed e.run := by
  unfold Enc.pendingBytes owed; split <;> rfl

/-- `x` is `e` after EncPixel on `q` (R130, R141): at most five bytes more, one for a run that it leaves pending. -/
structure PixelTaken (q : Pixel) (e x : Enc) : Prop where
  width : x.width = e.width
  height : x.height = e.height
  channels : x.channels = e.channels
  status : x.status = e.status
  left : x.left = e.left - 1
  phase : x.phase = if e.left = 1 then .finish else .pixels
  pp : x.pp = formPixel e.channels q
  run : RunOk x.run
  emitted : ∃ bytes, x.output = e.output ++ bytes ∧ x.outpos = e.outpos + BitVec.ofNat 64 bytes.length ∧
    bytes.length + owed x.run ≤ 5 + owed e.run

theorem owed_le_one (r : BitVec 7) : owed r ≤ 1 := by
  unfold owed; split <;> omega

theorem runOk_two : RunOk 2 := .inr (by decide)

/-- A repetition of the previous pixel (R132). -/
theorem pixelTaken_run {q : Pixel} {e : Enc} (hp : e.phase = .pixels) (hr : RunOk e.run)
    (hq : formPixel e.channels q = e.pp) : PixelTaken q e e.continueRun.countPixel := by
  have hnothing : e.output = e.output ++ [] ∧ e.outpos = e.outpos + BitVec.ofNat 64 ([] : List Byte).length :=
    ⟨(List.append_nil _).symm, (BitVec.add_zero _).symm⟩
  by_cases h0 : e.run = 0
  · rw [continueRun_of_zero h0, countPixel_eq (by exact hp)]
    exact ⟨rfl, rfl, rfl, rfl, rfl, rfl, hq.symm, runOk_two, [], hnothing.1, hnothing.2,
      (owed_le_one 2).trans (by omega)⟩
  by_cases h63 : e.run = 63
  · rw [continueRun_at_cap h63, countPixel_eq (by exact hp)]
    exact ⟨rfl, rfl, rfl, rfl, rfl, rfl, hq.symm, runOk_two, [0xFD], rfl, rfl,
      (Nat.add_le_add_left (owed_le_one 2) 1).trans (by omega)⟩
  · obtain ⟨hlo, hhi⟩ := hr.resolve_left h0
    have hnext : RunOk (e.run + 1) := .inr (by constructor <;> bv_omega)
    rw [continueRun_below_cap h0 h63, countPixel_eq (by exact hp)]
    exact ⟨rfl, rfl, rfl, rfl, rfl, rfl, hq.symm, hnext, [], hnothing.1, hnothing.2,
      (Nat.add_le_add_left (owed_le_one (e.run + 1)) 0).trans (by omega)⟩

/-- A pixel that differs from the previous one (R130, R134, R140). -/
theorem pixelTaken_new (P : Params) {q : Pixel} {e : Enc} (hp : e.phase = .pixels) (hr : RunOk e.run) :
    PixelTaken q e (e.newPixel P (formPixel e.channels q)).countPixel := by
  rw [newPixel_eq P _ e hr.flushable, countPixel_eq (by exact hp)]
  refine ⟨rfl, rfl, rfl, rfl, rfl, rfl, rfl, .inl rfl, _, rfl, rfl, ?_⟩
  have hlen := instr_length_le (selectChunk P e.hist e.pp (formPixel e.channels q))
  have hnone : owed 0 = 0 := rfl
  simp only [List.length_append, encode_length, pendingBytes_length, hnone]
  omega

/-- `EncPixel` by its two paths (R130). -/
theorem pixelTaken (P : Params) (q : Pixel) {e : Enc} (hp : e.phase = .pixels) (hr : RunOk e.run) :
    PixelTaken q e (Enc.pixel P q e) := by
  by_cases hq : formPixel e.channels q = e.pp
  · rw [pixel_of_eq P hq]
    exact pixelTaken_run hp hr hq
  · rw [pixel_of_ne P hq]
    exact pixelTaken_new P hp hr

/-! ## The invariant -/

/-- OUTPOS goes on counting the output while that is short of 2^64 bytes (R31). -/
theorem outpos_append {pos : BitVec 64} {out bytes : List Byte} (h : pos.toNat = out.length)
    (hl : (out ++ bytes).length < 2 ^ 64) : (pos + BitVec.ofNat 64 bytes.length).toNat = (out ++ bytes).length := by
  rw [List.length_append] at hl ⊢
  rw [BitVec.toNat_add, BitVec.toNat_ofNat]
  omega

/-- A formed pixel is opaque in a job without alpha (R131). -/
theorem formPixel_opaque {ch : Byte} (h : ch ≠ 4) (q : Pixel) : (formPixel ch q).a = 255 := by
  rw [formPixel_of_ne_four h]

theorem encInv_start (w h : BitVec 32) (ch cs : Byte) (e : Enc) : EncInv (e.start w h ch cs) := by
  rw [encStart_eq]
  by_cases hc : pixelCount w h = 0
  · simp only [hc, if_true]
    exact ⟨rfl, fun _ => .inl rfl, nofun, nofun, fun _ => rfl, rfl, fun _ _ => rfl⟩
  · simp only [hc, if_false]
    exact ⟨rfl, fun _ => .inl rfl, nofun, fun _ => hc, nofun, rfl, fun _ _ => rfl⟩

theorem encInv_abort {e : Enc} (hi : EncInv e) : EncInv e.abort :=
  ⟨rfl, fun h => absurd rfl h, nofun, nofun, nofun, hi.outpos_length, fun h => absurd rfl h⟩

theorem encInv_afterReset (pp : Pixel) (hist : History) (run : BitVec 7) : EncInv (Enc.afterReset pp hist run) :=
  ⟨rfl, fun h => absurd rfl h, nofun, nofun, nofun, rfl, fun h => absurd rfl h⟩

theorem encInv_input {e : Enc} (hi : EncInv e) (ps : List Pixel) : EncInv { e with input := ps } :=
  ⟨hi.status_phase, hi.run_range, hi.run_done, hi.left_pixels, hi.left_after, hi.outpos_length, hi.alpha_opaque⟩

theorem encInv_pixelTaken {q : Pixel} {e x : Enc} (hi : EncInv e) (hp : e.phase = .pixels) (hx : PixelTaken q e x)
    (hl : x.output.length < 2 ^ 64) : EncInv x := by
  have hstatus : x.status = 0x01 := by rw [hx.status, hi.status_phase, hp]; rfl
  obtain ⟨bytes, hout, hpos, -⟩ := hx.emitted
  have hcount : x.outpos.toNat = x.output.length := by
    rw [hpos, hout]
    exact outpos_append hi.outpos_length (hout ▸ hl)
  have halpha : x.channels ≠ 4 → x.pp.a = 255 := by
    rw [hx.channels, hx.pp]
    exact fun hc => formPixel_opaque hc q
  by_cases hlast : e.left = 1
  · have hphase : x.phase = .finish := by rw [hx.phase, if_pos hlast]
    have hleft : x.left = 0 := by rw [hx.left, hlast]; rfl
    refine ⟨by rw [hstatus, hphase]; rfl, fun _ => hx.run, ?_, ?_, fun _ => hleft, hcount, fun _ => halpha⟩
    · rw [hphase]; nofun
    · rw [hphase]; nofun
  · have hphase : x.phase = .pixels := by rw [hx.phase, if_neg hlast]
    have hleft : x.left ≠ 0 := by rw [hx.left]; exact fun h0 => hlast ((left_sub_one_eq_zero e.left).mp h0)
    refine ⟨by rw [hstatus, hphase]; rfl, fun _ => hx.run, ?_, fun _ => hleft, ?_, hcount, fun _ => halpha⟩
    · rw [hphase]; nofun
    · rw [hphase]; nofun

theorem encInv_finish {e : Enc} (hi : EncInv e) (hp : e.phase = .finish) (hl : e.finish.output.length < 2 ^ 64) :
    EncInv e.finish := by
  have hne : e.phase ≠ .idle := by rw [hp]; nofun
  have hrun : RunOk e.run := hi.run_range hne
  rw [encFinish_eq e hrun.flushable] at hl ⊢
  exact ⟨rfl, fun _ => .inl rfl, fun _ => rfl, nofun, fun _ => hi.left_after (.inl hp),
    outpos_append hi.outpos_length hl, fun _ => hi.alpha_opaque hne⟩

theorem encInv_change {P : Params} {e e' : Enc} (hi : EncInv e) (h : EncChange P e e') : EncInv e' := by
  cases h with
  | same => exact hi
  | start w h ch cs => exact encInv_start w h ch cs e
  | input ps => exact encInv_input hi _
  | abort => exact encInv_abort hi
  | pixel q qs hp hq hl =>
    have hrun : RunOk e.run := hi.run_range (by rw [hp]; nofun)
    exact encInv_pixelTaken (encInv_input hi qs) hp (pixelTaken P q hp hrun) hl
  | finish hp hl => exact encInv_finish hi hp hl
  | reset pp hist run => exact encInv_afterReset pp hist run

/-- Settles O42: every encoder of the next state is one of this state's, changed in a way that keeps the invariant
(`encInv_change`). -/
theorem stepKeepsEncoderInvariant : Obligations.StepKeepsEncoderInvariant := by
  intro s t hs h e' he'
  obtain ⟨e, he, hchange⟩ := (step_changes h).encs e' he'
  exact encInv_change (hs e he) hchange

/-! ## The bound on the output -/

theorem encBound_start (w h : BitVec 32) (ch cs : Byte) (e : Enc) : EncBound (e.start w h ch cs) := by
  rw [encStart_eq]
  refine ⟨fun _ => le_refl _, fun _ => Nat.le_add_right 14 _, ?_⟩
  intro hp
  simp only at hp
  split at hp <;> cases hp

theorem encBound_idle {e : Enc} (hp : e.phase = .idle) : EncBound e := by
  refine ⟨fun h => absurd hp h, fun h => ?_, fun h => ?_⟩ <;> rw [hp] at h
  · exact h.elim nofun nofun
  · cases h

theorem encBound_input {e : Enc} (hb : EncBound e) (ps : List Pixel) : EncBound { e with input := ps } :=
  ⟨hb.left_le, hb.pending_le, hb.done_le⟩

/-- The pixel's five bytes are allowed by the one more pixel consumed. -/
theorem encBound_pixelTaken {q : Pixel} {e x : Enc} (hi : EncInv e) (hb : EncBound e) (hp : e.phase = .pixels)
    (hx : PixelTaken q e x) : EncBound x := by
  have hle : e.left.toNat ≤ (pixelCount e.width e.height).toNat := hb.left_le (by rw [hp]; nofun)
  have hbefore : e.output.length + owed e.run ≤ 14 + 5 * ((pixelCount e.width e.height).toNat - e.left.toNat) :=
    hb.pending_le (.inl hp)
  have hpos : e.left ≠ 0 := hi.left_pixels hp
  have hleft : x.left.toNat + 1 = e.left.toNat := by
    rw [hx.left]
    bv_omega
  have hcount : pixelCount x.width x.height = pixelCount e.width e.height := by rw [hx.width, hx.height]
  obtain ⟨bytes, hout, -, hbytes⟩ := hx.emitted
  refine ⟨fun _ => by rw [hcount]; omega, fun _ => ?_, ?_⟩
  · change x.output.length + owed x.run ≤ 14 + 5 * ((pixelCount x.width x.height).toNat - x.left.toNat)
    rw [hcount, hout, List.length_append]
    omega
  · rw [hx.phase]
    split <;> nofun

theorem encBound_finish {e : Enc} (hi : EncInv e) (hb : EncBound e) (hp : e.phase = .finish) : EncBound e.finish := by
  have hne : e.phase ≠ .idle := by rw [hp]; nofun
  have hrun : RunOk e.run := hi.run_range hne
  have hbefore : e.output.length + owed e.run ≤ 14 + 5 * ((pixelCount e.width e.height).toNat - e.left.toNat) :=
    hb.pending_le (.inr hp)
  rw [encFinish_eq e hrun.flushable]
  refine ⟨fun _ => hb.left_le hne, fun h => h.elim nofun nofun, fun _ => ?_⟩
  have hterm : terminator.length = 8 := rfl
  simp only [List.length_append, pendingBytes_length, hterm]
  omega

theorem encBound_change {P : Params} {e e' : Enc} (hi : EncInv e) (hb : EncBound e) (h : EncChange P e e') :
    EncBound e' := by
  cases h with
  | same => exact hb
  | start w h ch cs => exact encBound_start w h ch cs e
  | input ps => exact encBound_input hb _
  | abort => exact encBound_idle rfl
  | pixel q qs hp hq hl =>
    have hrun : RunOk e.run := hi.run_range (by rw [hp]; nofun)
    exact encBound_pixelTaken (encInv_input hi qs) (encBound_input hb qs) hp (pixelTaken P q hp hrun)
  | finish hp hl => exact encBound_finish hi hb hp
  | reset pp hist run => exact encBound_idle rfl

/-- Settles O43: every encoder of the next state is one of this state's, changed in a way that keeps the bound
(`encBound_change`). -/
theorem stepKeepsOutputBound : Obligations.StepKeepsOutputBound := by
  intro s t hs h e' he'
  obtain ⟨e, he, hchange⟩ := (step_changes h).encs e' he'
  obtain ⟨hi, hb⟩ := hs e he
  exact encBound_change hi hb hchange

end Sys2Proof.EncoderInvariant
end

section
/-! The decoder's invariant (10_state.md R38, R42, R43, 40_header_trailer.md R118, 42_decoder.md R170, 60_exceptions.md
R211 to R213): each change of a decoder keeps it. -/

namespace Sys2Proof.DecoderInvariant

open Sys2Proof.Machine Sys2Proof.HeaderTrailer Sys2Proof.EncoderInvariant Sys2Proof.HostPort

/-! ## What the invariant says of each busy phase -/

section
variable {d : Dec}

theorem status_of_header (hi : DecInv d) (hp : d.phase = .header) : d.status = 0x01 := by
  have h := hi.status_phase
  rw [hp] at h
  exact List.mem_singleton.mp h

theorem status_of_chunks (hi : DecInv d) (hp : d.phase = .chunks) : d.status = 0x41 := by
  have h := hi.status_phase
  rw [hp] at h
  exact List.mem_singleton.mp h

theorem status_of_trailer (hi : DecInv d) (hp : d.phase = .trailer) : d.status = 0x41 := by
  have h := hi.status_phase
  rw [hp] at h
  exact List.mem_singleton.mp h

/-- Reads that only go forward stay within `src`. -/
theorem inpos_le_of_forward (hi : DecInv d) {p : BitVec 64} (h : Forward d p) : p.toNat ≤ d.src.length :=
  (h hi.src_lt hi.inpos_le).2

end

/-! ## Each change -/

theorem statusOk_idle : statusOk 0x00 = false := rfl

/-- After the header, while the job runs: HDR, and no success yet (R44). -/
theorem status_running : statusHdr 0x41 = true ∧ statusOk 0x41 = false := ⟨rfl, rfl⟩

theorem decInv_start {src : List Byte} (hs : src.length < 2 ^ 64) (d : Dec) : DecInv (d.start src) := by
  rw [decStart_eq]
  exact ⟨List.mem_singleton.mpr rfl, nofun, nofun, Nat.zero_le _, hs, fun h => h.elim nofun nofun,
    fun _ _ => ⟨rfl, rfl, rfl, rfl, rfl⟩, fun _ => rfl⟩

theorem decInv_abort {d : Dec} (hi : DecInv d) : DecInv d.abort :=
  ⟨List.mem_singleton.mpr rfl, nofun, nofun, hi.inpos_le, hi.src_lt, fun h => h.elim nofun nofun,
    fun h => absurd rfl h, fun h => nomatch statusOk_idle.symm.trans h⟩

theorem decInv_afterReset (pp : Pixel) (hist : History) : DecInv (Dec.afterReset pp hist) :=
  ⟨List.mem_singleton.mpr rfl, nofun, nofun, Nat.zero_le _, Nat.two_pow_pos 64, fun h => h.elim nofun nofun,
    fun h => absurd rfl h, fun h => nomatch statusOk_idle.symm.trans h⟩

/-- A job that ends without success keeps what was published, and HDR says whether a header was (R211). -/
theorem decInv_ended {d : Dec} (hi : DecInv d) (hp : d.phase ≠ .idle) {p : BitVec 64} (hf : Forward d p) {c : ErrCode}
    (hst : statusEnd false c d.status ∈ decStatusesOf .done) :
    DecInv { d with inpos := p, status := statusEnd false c d.status, phase := .done } := by
  obtain ⟨-, -, hok, -, hhdr⟩ := statusEnd_fields d.status c false
  refine ⟨hst, nofun, nofun, inpos_le_of_forward hi hf, hi.src_lt, fun h => h.elim nofun nofun, fun _ h => ?_,
    fun h => ?_⟩
  · exact hi.no_header hp (hhdr.symm.trans h)
  · exact nomatch hok.symm.trans h

theorem decInv_header {d : Dec} (hi : DecInv d) (hp : d.phase = .header) : DecInv d.header := by
  have hst := status_of_header hi hp
  have hne : d.phase ≠ .idle := by rw [hp]; nofun
  rcases header_cases d with ⟨w, h, ch, cs, p, e, hf⟩ | ⟨c, p, hc, e, hf⟩ <;> rw [e]
  · obtain ⟨-, -, -, -, hout⟩ := hi.no_header hne (by rw [hst]; rfl)
    have hle := inpos_le_of_forward hi hf
    have hcount : d.output.length + (pixelCount w h).toNat = (pixelCount w h).toNat := by
      rw [hout, List.length_nil, Nat.zero_add]
    have haccepted : statusHeaderAccepted 0x01 = 0x41 := rfl
    rw [hst, haccepted]
    by_cases hz : pixelCount w h = 0
    · simp only [hz, if_true] at hcount ⊢
      exact ⟨List.mem_singleton.mpr rfl, nofun, fun _ => rfl, hle, hi.src_lt, fun _ => by rw [hz]; exact hcount,
        fun _ h => (nomatch status_running.1.symm.trans h), fun h => nomatch status_running.2.symm.trans h⟩
    · simp only [hz, if_false]
      exact ⟨List.mem_singleton.mpr rfl, fun _ => hz, nofun, hle, hi.src_lt, fun _ => hcount,
        fun _ h => (nomatch status_running.1.symm.trans h), fun h => nomatch status_running.2.symm.trans h⟩
  · refine decInv_ended hi hne hf (c := c) ?_
    rw [hst]
    rcases hc with rfl | rfl <;> decide

theorem decInv_trailer {d : Dec} (hi : DecInv d) (hp : d.phase = .trailer) : DecInv d.trailer := by
  have hst := status_of_trailer hi hp
  have hne : d.phase ≠ .idle := by rw [hp]; nofun
  rcases trailer_cases d with ⟨p, st, hs, e, hf⟩ | ⟨p, e, hf⟩ <;> rw [e]
  · rcases hs with rfl | rfl
    · have hcount := hi.pixels_count (.inr hp)
      rw [hi.left_trailer hp] at hcount
      have hhdr : statusHdr (statusEnd true .none d.status) = true := by rw [hst]; decide
      have hmem : statusEnd true .none d.status ∈ decStatusesOf .done := by rw [hst]; decide
      exact ⟨hmem, nofun, nofun, inpos_le_of_forward hi hf, hi.src_lt, fun h => h.elim nofun nofun,
        fun _ h => (nomatch hhdr.symm.trans h), fun _ => hcount⟩
    · exact decInv_ended hi hne hf (by rw [hst]; decide)
  · exact decInv_ended hi hne hf (by rw [hst]; decide)

/-- Pixels that a chunk has output and those it leaves make up the header's count: it ends in CHUNKS, or in TRAILER with
none left (R170, R180). -/
theorem decInv_endChunk {d : Dec} (hp : d.phase = .chunks) (hst : d.status = 0x41) (hpos : d.inpos.toNat ≤ d.src.length)
    (hs : d.src.length < 2 ^ 64) (hcount : d.output.length + d.left.toNat = (pixelCount d.width d.height).toNat) :
    DecInv d.endChunk := by
  have hhdr : statusHdr d.status = true := by rw [hst]; exact status_running.1
  have hok : statusOk d.status = false := by rw [hst]; exact status_running.2
  unfold Dec.endChunk
  by_cases hz : d.left = 0
  · rw [if_pos hz]
    exact ⟨List.mem_singleton.mpr hst, nofun, fun _ => hz, hpos, hs, fun _ => hcount,
      fun _ h => (nomatch hhdr.symm.trans h), fun h => nomatch hok.symm.trans h⟩
  · rw [if_neg hz]
    refine ⟨?_, fun _ => hz, fun h => (nomatch hp.symm.trans h), hpos, hs, fun _ => hcount,
      fun _ h => (nomatch hhdr.symm.trans h), fun h => nomatch hok.symm.trans h⟩
    rw [hp, hst]
    exact List.mem_singleton.mpr rfl

theorem decInv_chunkEffect {d : Dec} (hi : DecInv d) (hp : d.phase = .chunks) (P : Params) (i : Instr) :
    DecInv (d.chunkEffect P i) := by
  have hst := status_of_chunks hi hp
  have hcount := hi.pixels_count (.inl hp)
  have hpos := hi.left_chunks hp
  rcases chunkEffect_cases P d i with ⟨n, -, e⟩ | e <;> rw [e]
  · refine decInv_endChunk (by exact hp) (by exact hst) (by exact hi.inpos_le) (by exact hi.src_lt) ?_
    have hle : d.runPixels n ≤ d.left.toNat := Nat.min_le_right _ _
    have hleft : (d.left - BitVec.ofNat 64 (d.runPixels n)).toNat = d.left.toNat - d.runPixels n := by bv_omega
    simp only [List.length_append, List.length_replicate, hleft]
    omega
  · refine decInv_endChunk (by exact hp) (by exact hst) (by exact hi.inpos_le) (by exact hi.src_lt) ?_
    have hleft : (d.left - 1).toNat + 1 = d.left.toNat := by bv_omega
    simp only [takePixel_output, takePixel_left, takePixel_width, takePixel_height, List.length_append,
      List.length_singleton]
    omega

/-- A read moves D.INPOS alone, within `src`. -/
theorem decInv_inpos {d : Dec} (hi : DecInv d) {p : BitVec 64} (hf : Forward d p) : DecInv { d with inpos := p } :=
  ⟨hi.status_phase, hi.left_chunks, hi.left_trailer, inpos_le_of_forward hi hf, hi.src_lt, hi.pixels_count, hi.no_header,
    hi.ok_complete⟩

theorem decInv_change {P : Params} {d d' : Dec} (hi : DecInv d) (h : DecChange P d d') : DecInv d' := by
  cases h with
  | same => exact hi
  | start src hf hs => exact decInv_start hs d
  | abort => exact decInv_abort hi
  | header hp => exact decInv_header hi hp
  | trailer hp => exact decInv_trailer hi hp
  | chunk i d' hp hf hp' =>
    rcases fetch_forward d with ⟨i', p, e, hfwd⟩ | ⟨p, e, -⟩ <;> rw [e] at hf <;> cases hf
    exact decInv_chunkEffect (decInv_inpos hi hfwd) hp P i
  | chunkFail c d' hp hf =>
    rcases fetch_forward d with ⟨i', p, e, -⟩ | ⟨p, e, hfwd⟩ <;> rw [e] at hf <;> cases hf
    have hst := status_of_chunks hi hp
    exact decInv_ended hi (by rw [hp]; nofun) hfwd (by rw [hst]; decide)
  | reset pp hist => exact decInv_afterReset pp hist

/-! ## The statements -/

/-- Settles O44: every decoder of the next state is one of this state's, changed in a way that keeps the invariant
(`decInv_change`). -/
theorem stepKeepsDecoderInvariant : Obligations.StepKeepsDecoderInvariant := by
  intro s t hs h d' hd'
  obtain ⟨d, hd, hchange⟩ := (step_changes h).decs d' hd'
  exact decInv_change (hs d hd) hchange

/-- The statuses of every phase, with the codes and the bit that they hold (R43, R213). -/
theorem decStatusesOf_fields (ph : DecPhase) : ∀ st ∈ decStatusesOf ph,
    (statusErr st = 0 ∨ statusErr st = 1 ∨ statusErr st = 3 ∨ statusErr st = 4) ∧ st.getLsbD 7 = false := by
  cases ph <;> decide

/-- Settles O46: the invariant leaves nine values of the status register (`decStatusesOf_fields`). -/
theorem noBadTagNoReservedCode : Obligations.NoBadTagNoReservedCode :=
  fun d hi => decStatusesOf_fields d.phase d.status hi.status_phase

/-- Settles O41: every engine is in IDLE, with the values of a reset. -/
theorem resetMeetsInvariants : Obligations.ResetMeetsInvariants := by
  refine ⟨?encoders, ?decoders, ?encoderCaches, ?decoderCaches⟩
  case encoders =>
    intro e he
    rw [mem_reset_encs he]
    exact ⟨encInv_afterReset _ _ _, encBound_idle rfl⟩
  case decoders =>
    intro d hd
    rw [mem_reset_decs hd]
    exact decInv_afterReset _ _
  case encoderCaches =>
    intro e he hp
    rw [mem_reset_encs he] at hp
    exact absurd rfl hp
  case decoderCaches =>
    intro d hd hp
    rw [mem_reset_decs hd] at hp
    exact absurd rfl hp

end Sys2Proof.DecoderInvariant
end

section
/-! The history caches (10_state.md R55): a job starts with a cleared cache, and a pixel is only ever written at the slot
of its own hash. -/

namespace Sys2Proof.CacheInvariant

open Sys2Proof.Machine Sys2Proof.HeaderTrailer

/-! ## What a change does to a cache -/

/-- A cache is kept, or a pixel is written at the slot of its hash (R140, R178). -/
def CacheStep (P : Params) (h h' : History) : Prop := h' = h ∨ ∃ p, h' = writeSlot h (pHash P p) p

theorem cacheInv_of_cacheStep {P : Params} {h h' : History} (hc : CacheInv P h) (hs : CacheStep P h h') :
    CacheInv P h' := by
  rcases hs with rfl | ⟨p, rfl⟩
  · exact hc
  · exact cacheInv_writeSlot hc p

theorem continueRun_hist (e : Enc) : e.continueRun.hist = e.hist := by
  rw [continueRun_eq]
  split
  · rfl
  · split <;> rfl

theorem newPixel_hist (P : Params) (p : Pixel) (e : Enc) :
    (e.newPixel P p).hist = writeSlot e.hist (pHash P p) p := by
  simp only [Enc.newPixel, emit_eq, flushRun_hist]

theorem pixel_cacheStep (P : Params) (q : Pixel) (e : Enc) : CacheStep P e.hist (Enc.pixel P q e).hist := by
  rw [Enc.pixel, countPixel_hist]
  split
  · exact .inl (continueRun_hist e)
  · exact .inr ⟨_, newPixel_hist P _ e⟩

theorem encFinish_hist (e : Enc) : e.finish.hist = e.hist := by
  simp only [Enc.finish, outBytes_eq, flushRun_hist]

theorem header_hist (d : Dec) : d.header.hist = d.hist := by
  rcases header_cases d with ⟨w, h, ch, cs, p, e, -⟩ | ⟨c, p, -, e, -⟩ <;> simp only [e, fail_hist]

theorem trailer_hist (d : Dec) : d.trailer.hist = d.hist := by
  rcases trailer_cases d with ⟨p, st, -, e, -⟩ | ⟨p, e, -⟩ <;> simp only [e, fail_hist]

theorem chunkEffect_cacheStep (P : Params) (d : Dec) (i : Instr) : CacheStep P d.hist (d.chunkEffect P i).hist := by
  rcases chunkEffect_cases P d i with ⟨n, -, e⟩ | e <;> rw [e]
  · exact .inl (endChunk_hist _)
  · exact .inr ⟨_, endChunk_hist _⟩

/-! ## Each change keeps R55 -/

/-- R55 of an encoder: in a job its cache meets the cache invariant. -/
theorem encCache_change {P : Params} {e e' : Enc} (hi : e.phase ≠ .idle → CacheInv P e.hist) (h : EncChange P e e') :
    e'.phase ≠ .idle → CacheInv P e'.hist := by
  cases h with
  | same => exact hi
  | start w h ch cs =>
    rw [encStart_eq]
    exact fun _ => cacheInv_cleared P
  | input ps => exact hi
  | abort => exact fun hp => absurd rfl hp
  | pixel q qs hp hq hl =>
    exact fun _ => cacheInv_of_cacheStep (hi (by rw [hp]; nofun)) (pixel_cacheStep P q { e with input := qs })
  | finish hp hl =>
    rw [encFinish_hist]
    exact fun _ => hi (by rw [hp]; nofun)
  | reset pp hist run => exact fun hp => absurd rfl hp

/-- R55 of a decoder: in a job its cache meets the cache invariant. -/
theorem decCache_change {P : Params} {d d' : Dec} (hi : d.phase ≠ .idle → CacheInv P d.hist) (h : DecChange P d d') :
    d'.phase ≠ .idle → CacheInv P d'.hist := by
  cases h with
  | same => exact hi
  | start src hf hs => exact fun _ => cacheInv_cleared P
  | abort => exact fun hp => absurd rfl hp
  | header hp =>
    rw [header_hist]
    exact fun _ => hi (by rw [hp]; nofun)
  | trailer hp =>
    rw [trailer_hist]
    exact fun _ => hi (by rw [hp]; nofun)
  | chunk i d' hp hf hp' =>
    rcases fetch_forward d with ⟨i', p, e, -⟩ | ⟨p, e, -⟩ <;> (rw [e] at hf; cases hf)
    exact fun _ => cacheInv_of_cacheStep (hi (by rw [hp]; nofun)) (chunkEffect_cacheStep P { d with inpos := p } i)
  | chunkFail c d' hp hf =>
    rcases fetch_forward d with ⟨i', p, e, -⟩ | ⟨p, e, -⟩ <;> rw [e] at hf <;> cases hf
    exact fun _ => hi (by rw [hp]; nofun)
  | reset pp hist => exact fun hp => absurd rfl hp

/-- Settles O45: every engine of the next state is one of this state's, changed in a way that keeps R55
(`encCache_change`, `decCache_change`), and the parameters stay. -/
theorem stepKeepsCacheInvariant : Obligations.StepKeepsCacheInvariant := by
  intro s t hs h
  obtain ⟨hencs, hdecs⟩ := hs
  obtain ⟨hparams, hencs', hdecs'⟩ := step_changes h
  rw [CachesInv, hparams]
  refine ⟨?encoders, ?decoders⟩
  case encoders =>
    intro e' he'
    obtain ⟨e, he, hchange⟩ := hencs' e' he'
    exact encCache_change (hencs e he) hchange
  case decoders =>
    intro d' hd'
    obtain ⟨d, hd, hchange⟩ := hdecs' d' hd'
    exact decCache_change (hdecs d hd) hchange

end Sys2Proof.CacheInvariant
end

section
/-! The rules of the whole block (00_scope.md R9 to R11, 10_state.md R20, R38, R47, R49, R62, 60_exceptions.md R226): what
a step leaves as it was, that engines share nothing, and that streams only go forward. -/

namespace Sys2Proof.BlockRules

open Sys2Proof.Machine Sys2Proof.CacheInvariant

/-! ## The parameters and the number of engines -/

/-- The same parameters, and as many engines of each kind. -/
def SameShape (s t : State) : Prop :=
  t.params = s.params ∧ t.encs.length = s.encs.length ∧ t.decs.length = s.decs.length

theorem sameShape_setEnc (s : State) (k : Nat) (e : Enc) : SameShape s (s.setEnc k e) := ⟨rfl, List.length_set, rfl⟩

theorem sameShape_setDec (s : State) (k : Nat) (d : Dec) : SameShape s (s.setDec k d) := ⟨rfl, rfl, List.length_set⟩

theorem putEnc_sameShape {s t : State} {k : Nat} {e : Enc} (h : s.putEnc k e = .next t) : SameShape s t := by
  obtain ⟨-, rfl⟩ := putEnc_next h
  exact sameShape_setEnc s k e

theorem hostCmd_sameShape {s t : State} {c : HostCmd} (h : hostCmd c s = .next t) : SameShape s t := by
  cases c with
  | encStart k w hh ch cs =>
    simp only [hostCmd, encStartCmd] at h
    split at h
    · cases h
    · split at h
      · exact putEnc_sameShape h
      · exact putEnc_sameShape h
      · cases h
      · cases h
  | encPixels k ps =>
    simp only [hostCmd, encPixelsCmd] at h
    split at h <;> cases h
    exact sameShape_setEnc s k _
  | encAbort k =>
    simp only [hostCmd, encAbortCmd] at h
    split at h <;> cases h
    exact sameShape_setEnc s k _
  | decStart k src =>
    simp only [hostCmd, decStartCmd] at h
    split at h
    · cases h
    · split at h
      · split at h <;> cases h
        exact sameShape_setDec s k _
      · split at h <;> cases h
        exact sameShape_setDec s k _
      all_goals cases h
  | decAbort k =>
    simp only [hostCmd, decAbortCmd] at h
    split at h <;> cases h
    exact sameShape_setDec s k _
  | read r =>
    simp only [hostCmd, readCmd] at h
    split at h <;> cases h
    exact ⟨rfl, rfl, rfl⟩

theorem tick_sameShape {s t : State} {e : EngineId} (h : tick e s = .next t) : SameShape s t := by
  cases e with
  | enc k =>
    obtain ⟨_, _, -, -, hparams, hdecs, hencs⟩ := tickEnc_cases h
    exact ⟨hparams, by rw [hencs, List.length_set], by rw [hdecs]⟩
  | dec k =>
    obtain ⟨_, _, -, -, hparams, hencs, hdecs⟩ := tickDec_cases h
    exact ⟨hparams, by rw [hencs], by rw [hdecs, List.length_set]⟩

theorem runMove_sameShape {s t : State} {m : Move} (h : runMove m s = .next t) : SameShape s t := by
  cases m with
  | cmd c => exact hostCmd_sameShape h
  | bus addr data =>
    simp only [runMove, busAccess] at h
    split at h
    · cases h
    · exact hostCmd_sameShape h
  | tick e => exact tick_sameShape h
  | hardReset =>
    cases h
    exact ⟨rfl, List.length_mapIdx, List.length_mapIdx⟩

/-- Settles O47: every move writes single engines, or every engine in its place (`runMove_sameShape`). -/
theorem stepKeepsParametersAndEngines : Obligations.StepKeepsParametersAndEngines := by
  intro s t h
  unfold step at h
  split at h
  · rename_i m more _
    have hmove : SameShape { s with agenda := more } t := runMove_sameShape h
    exact hmove
  · split at h
    · exact tick_sameShape h
    · cases h
      exact ⟨rfl, rfl, rfl⟩

/-! ## Turns of engines -/

/-- Settles O48: a turn writes its own engine in its own list. -/
theorem engineStepWritesOnlyItself : Obligations.EngineStepWritesOnlyItself := by
  refine ⟨?encoder, ?decoder⟩
  case encoder =>
    intro s t k h
    obtain ⟨_, e', -, -, -, hdecs, hencs⟩ := tickEnc_cases h
    exact ⟨hdecs, fun j hj => by rw [hencs, List.getElem?_set_ne hj.symm]⟩
  case decoder =>
    intro s t k h
    obtain ⟨_, d', -, -, -, hencs, hdecs⟩ := tickDec_cases h
    exact ⟨hencs, fun j hj => by rw [hdecs, List.getElem?_set_ne hj.symm]⟩

/-- An encoder's turn that goes on is its own step, written in its place. -/
theorem tick_enc_next {s t : State} {k : Nat} (h : tick (.enc k) s = .next t) :
    ∃ e e', s.encs[k]? = some e ∧ e.own s.params = some e' ∧ t = s.setEnc k e' := by
  obtain ⟨e, -, he, -⟩ := tickEnc_cases h
  rw [tick_enc_eq he] at h
  split at h
  · rename_i e' hown
    cases h
    exact ⟨e, e', he, hown, rfl⟩
  · cases h

theorem tick_enc_of_own {s : State} {k : Nat} {e e' : Enc} (he : s.encs[k]? = some e)
    (hown : e.own s.params = some e') : tick (.enc k) s = .next (s.setEnc k e') := by
  rw [tick_enc_eq he, hown]

/-- A decoder's turn that goes on is its own step, written in its place. -/
theorem tick_dec_next {s t : State} {k : Nat} (h : tick (.dec k) s = .next t) :
    ∃ d, s.decs[k]? = some d ∧ t.params = s.params ∧ t.encs = s.encs ∧ t.decs = s.decs.set k (d.own s.params) := by
  obtain ⟨d, -, hd, -⟩ := tickDec_cases h
  obtain ⟨t', ht', hparams, hencs, hdecs, -, -⟩ := tick_dec_eq hd
  cases ht'.symm.trans h
  exact ⟨d, hd, hparams, hencs, hdecs⟩

theorem getElem?_set_of_some {α : Type} {l : List α} {k : Nat} {a b : α} (h : l[k]? = some a) :
    (l.set k b)[k]? = some b :=
  List.getElem?_set_self (List.getElem?_eq_some_iff.mp h).1

/-- Settles O49: an engine's own step is a function of the engine and the parameters (`Enc.own`, `Dec.own`). -/
theorem engineStepReadsOnlyItself : Obligations.EngineStepReadsOnlyItself := by
  refine ⟨?encoder, ?decoder⟩
  case encoder =>
    intro s t s' k hparams hsame h
    obtain ⟨e, e', he, hown, rfl⟩ := tick_enc_next h
    have ht := hsame.symm.trans he
    rw [hparams] at hown
    exact ⟨_, tick_enc_of_own ht hown, by rw [setEnc_get_same ht, setEnc_get_same he]⟩
  case decoder =>
    intro s t s' k hparams hsame h
    obtain ⟨d, hd, -, -, hdecs⟩ := tick_dec_next h
    have ht := hsame.symm.trans hd
    obtain ⟨t', ht', -, -, hdecs', -, -⟩ := tick_dec_eq ht
    exact ⟨t', ht', by rw [hdecs, hdecs', getElem?_set_of_some hd, getElem?_set_of_some ht, hparams]⟩

/-! ## Turns of two engines, in either order -/

theorem enc_enc_commute {s a b : State} {k j : Nat} (hne : k ≠ j) (h : tick (.enc k) s = .next a)
    (h' : tick (.enc j) a = .next b) :
    ∃ a' b', tick (.enc j) s = .next a' ∧ tick (.enc k) a' = .next b' ∧ SameBlock b b' := by
  obtain ⟨e, e', he, hown, rfl⟩ := tick_enc_next h
  obtain ⟨f, f', hf, hown', rfl⟩ := tick_enc_next h'
  rw [setEnc_get_other hne.symm] at hf
  have hsecond : (s.setEnc j f').encs[k]? = some e := by rw [setEnc_get_other hne, he]
  exact ⟨_, _, tick_enc_of_own hf hown', tick_enc_of_own hsecond hown, rfl, List.set_comm _ _ hne, rfl⟩

theorem enc_dec_commute {s a b : State} {k j : Nat} (h : tick (.enc k) s = .next a) (h' : tick (.dec j) a = .next b) :
    ∃ a' b', tick (.dec j) s = .next a' ∧ tick (.enc k) a' = .next b' ∧ SameBlock b b' := by
  obtain ⟨e, e', he, hown, rfl⟩ := tick_enc_next h
  obtain ⟨d, hd, hparams, hencs, hdecs⟩ := tick_dec_next h'
  obtain ⟨a', ha', hparams', hencs', hdecs', -, -⟩ := tick_dec_eq (s := s) hd
  rw [← hencs'] at he
  rw [← hparams'] at hown
  exact ⟨a', _, ha', tick_enc_of_own he hown, hparams.trans hparams'.symm,
    hencs.trans (congrArg (·.set k e') hencs'.symm), hdecs.trans hdecs'.symm⟩

theorem dec_enc_commute {s a b : State} {k j : Nat} (h : tick (.dec k) s = .next a) (h' : tick (.enc j) a = .next b) :
    ∃ a' b', tick (.enc j) s = .next a' ∧ tick (.dec k) a' = .next b' ∧ SameBlock b b' := by
  obtain ⟨d, hd, hparams, hencs, hdecs⟩ := tick_dec_next h
  obtain ⟨e, e', he, hown, rfl⟩ := tick_enc_next h'
  rw [hencs] at he
  rw [hparams] at hown
  obtain ⟨b', hb', hparams', hencs', hdecs', -, -⟩ := tick_dec_eq (s := s.setEnc j e') hd
  exact ⟨_, b', tick_enc_of_own he hown, hb', hparams.trans hparams'.symm,
    (congrArg (·.set j e') hencs).trans hencs'.symm, hdecs.trans hdecs'.symm⟩

theorem dec_dec_commute {s a b : State} {k j : Nat} (hne : k ≠ j) (h : tick (.dec k) s = .next a)
    (h' : tick (.dec j) a = .next b) :
    ∃ a' b', tick (.dec j) s = .next a' ∧ tick (.dec k) a' = .next b' ∧ SameBlock b b' := by
  obtain ⟨d, hd, hparams, hencs, hdecs⟩ := tick_dec_next h
  obtain ⟨f, hf, hparams₁, hencs₁, hdecs₁⟩ := tick_dec_next h'
  rw [hdecs, List.getElem?_set_ne hne] at hf
  obtain ⟨a', ha', hparams₂, hencs₂, hdecs₂, -, -⟩ := tick_dec_eq hf
  have hsecond : a'.decs[k]? = some d := by rw [hdecs₂, List.getElem?_set_ne hne.symm, hd]
  obtain ⟨b', hb', hparams₃, hencs₃, hdecs₃, -, -⟩ := tick_dec_eq hsecond
  refine ⟨a', b', ha', hb', ?_, ?_, ?_⟩
  · rw [hparams₁, hparams, hparams₃, hparams₂]
  · rw [hencs₁, hencs, hencs₃, hencs₂]
  · rw [hdecs₁, hdecs, hdecs₃, hdecs₂, hparams, hparams₂, List.set_comm _ _ hne]

/-- Settles O50, by the kinds of the two engines: each turn is a function of its own engine, and writes to two places
commute. -/
theorem engineStepsCommute : Obligations.EngineStepsCommute := by
  intro s a b e f hne h h'
  cases e with
  | enc k =>
    cases f with
    | enc j => exact enc_enc_commute (fun hkj => hne (congrArg _ hkj)) h h'
    | dec j => exact enc_dec_commute h h'
  | dec k =>
    cases f with
    | enc j => exact dec_enc_commute h h'
    | dec j => exact dec_dec_commute (fun hkj => hne (congrArg _ hkj)) h h'

/-! ## Streams -/

theorem continueRun_output_prefix (e : Enc) : e.output <+: e.continueRun.output := by
  rw [continueRun_eq]
  split
  · exact List.prefix_rfl
  · split
    · exact List.prefix_append _ _
    · exact List.prefix_rfl

theorem newPixel_output_prefix (P : Params) (p : Pixel) (e : Enc) : e.output <+: (e.newPixel P p).output := by
  simp only [Enc.newPixel, emit_eq]
  exact (flushRun_output_prefix e).trans (List.prefix_append _ _)

theorem pixel_output_prefix (P : Params) (q : Pixel) (e : Enc) : e.output <+: (Enc.pixel P q e).output := by
  rw [Enc.pixel, countPixel_output]
  split
  · exact continueRun_output_prefix e
  · exact newPixel_output_prefix P _ e

theorem encFinish_output_prefix (e : Enc) : e.output <+: e.finish.output := by
  simp only [Enc.finish, outBytes_eq]
  exact (flushRun_output_prefix e).trans (List.prefix_append _ _)

/-- An encoder's own step only appends (R47, R62). -/
theorem encOwn_output_prefix {P : Params} {e e' : Enc} (h : e.own P = some e') : e.output <+: e'.output := by
  unfold Enc.own at h
  split at h
  · cases h; exact List.prefix_rfl
  · cases h; exact List.prefix_rfl
  · cases h; exact List.prefix_rfl
  · rename_i q qs _ _
    rw [Option.ite_none_right_eq_some] at h
    obtain ⟨-, h⟩ := h
    rw [← Option.some.inj h]
    exact pixel_output_prefix P q { e with input := qs }
  · rw [Option.ite_none_right_eq_some] at h
    obtain ⟨-, h⟩ := h
    rw [← Option.some.inj h]
    exact encFinish_output_prefix e

/-- What a decoder's own step may do to its streams (R38, R49, R62). -/
structure GoesForward (d d' : Dec) : Prop where
  inpos : Forward d d'.inpos
  src : d'.src = d.src
  output : d.output <+: d'.output

theorem goesForward_refl (d : Dec) : GoesForward d d := ⟨.refl d, rfl, List.prefix_rfl⟩

theorem chunkEffect_goesForward (P : Params) (d : Dec) (i : Instr) : GoesForward d (d.chunkEffect P i) := by
  rcases chunkEffect_cases P d i with ⟨n, -, e⟩ | e <;> rw [e]
  · refine ⟨?_, endChunk_src _, ?_⟩
    · rw [Dec.repeatPixel, endChunk_inpos]; exact .refl d
    · rw [Dec.repeatPixel, endChunk_output]; exact List.prefix_append _ _
  · refine ⟨?_, endChunk_src _, ?_⟩
    · rw [endChunk_inpos]; exact .refl d
    · rw [endChunk_output]; exact List.prefix_append _ _

theorem decOwn_goesForward (P : Params) (d : Dec) : GoesForward d (d.own P) := by
  unfold Dec.own
  cases d.phase with
  | idle => exact goesForward_refl d
  | done => exact goesForward_refl d
  | header =>
    rcases header_cases d with ⟨w, h, ch, cs, p, e, hf⟩ | ⟨c, p, -, e, hf⟩ <;> simp only [e]
    · exact ⟨hf, rfl, List.prefix_rfl⟩
    · exact ⟨hf, rfl, List.prefix_rfl⟩
  | trailer =>
    rcases trailer_cases d with ⟨p, st, -, e, hf⟩ | ⟨p, e, hf⟩ <;> simp only [e]
    · exact ⟨hf, rfl, List.prefix_rfl⟩
    · exact ⟨hf, rfl, List.prefix_rfl⟩
  | chunks =>
    rcases fetch_forward d with ⟨i, p, e, hf⟩ | ⟨p, e, hf⟩ <;> simp only [e]
    · obtain ⟨hpos, hsrc, hout⟩ := chunkEffect_goesForward P { d with inpos := p } i
      exact ⟨hf.trans hpos, hsrc, hout⟩
    · exact ⟨hf, rfl, List.prefix_rfl⟩

/-- Settles O51: a turn is the engine's own step (`decOwn_goesForward`, `encOwn_output_prefix`). -/
theorem streamsOnlyGoForward : Obligations.StreamsOnlyGoForward := by
  refine ⟨?decoder, ?encoder⟩
  case decoder =>
    intro s t k d hd hs hle h
    obtain ⟨d', hd', -, -, hdecs⟩ := tick_dec_next h
    cases hd.symm.trans hd'
    obtain ⟨hpos, hsrc, hout⟩ := decOwn_goesForward s.params d
    obtain ⟨hlo, hhi⟩ := hpos hs hle
    exact ⟨_, by rw [hdecs, getElem?_set_of_some hd], hlo, hsrc ▸ hhi, hsrc, hout⟩
  case encoder =>
    intro s t k e he h
    obtain ⟨e₀, e', he₀, hown, rfl⟩ := tick_enc_next h
    cases he.symm.trans he₀
    exact ⟨e', setEnc_get_same he, encOwn_output_prefix hown⟩

end Sys2Proof.BlockRules
end

section
/-! A decode job ends whatever its bytes are (70_reset_and_hazards.md R251): every chunk outputs a pixel or ends the job,
so the pixels left bound the steps left. -/

namespace Sys2Proof.DecodeEnds

open Sys2Proof.Machine Sys2Proof.ChunkRoundTrip Sys2Proof.DecoderInvariant

/-- Within `n` of its own steps the decoder is in DONE, with the header registers it has now. -/
def EndsWithin (P : Params) (d : Dec) (n : Nat) : Prop :=
  ∃ m, m ≤ n ∧ ((Dec.own P)^[m] d).phase = .done ∧
    ((Dec.own P)^[m] d).width = d.width ∧ ((Dec.own P)^[m] d).height = d.height

theorem endsWithin_of_done {P : Params} {d : Dec} (h : d.phase = .done) (n : Nat) : EndsWithin P d n :=
  ⟨0, Nat.zero_le n, h, rfl, rfl⟩

theorem EndsWithin.mono {P : Params} {d : Dec} {m n : Nat} (h : EndsWithin P d m) (hmn : m ≤ n) : EndsWithin P d n := by
  obtain ⟨k, hk, hend⟩ := h
  exact ⟨k, hk.trans hmn, hend⟩

/-- One step that keeps the header registers, then the rest. -/
theorem EndsWithin.step {P : Params} {d : Dec} {n : Nat} (h : EndsWithin P (d.own P) n) (hw : (d.own P).width = d.width)
    (hh : (d.own P).height = d.height) : EndsWithin P d (n + 1) := by
  obtain ⟨m, hm, hdone, hwidth, hheight⟩ := h
  exact ⟨m + 1, Nat.succ_le_succ hm, hdone, hwidth.trans hw, hheight.trans hh⟩

/-- The trailer step ends the job (R121). -/
theorem endsWithin_trailer (P : Params) {d : Dec} (hp : d.phase = .trailer) : EndsWithin P d 1 := by
  have hown : d.own P = d.trailer := by simp only [Dec.own, hp]
  rcases trailer_cases d with ⟨p, st, -, e, -⟩ | ⟨p, e, -⟩
  · exact (endsWithin_of_done (by rw [hown, e]) 0).step (by rw [hown, e]) (by rw [hown, e])
  · exact (endsWithin_of_done (by rw [hown, e]; rfl) 0).step (by rw [hown, e]; rfl) (by rw [hown, e]; rfl)

/-- An own step is one of the changes that a step of the block can make. -/
theorem own_change (P : Params) (d : Dec) : DecChange P d (d.own P) := by
  cases hp : d.phase with
  | idle => simp only [Dec.own, hp]; exact .same
  | done => simp only [Dec.own, hp]; exact .same
  | header => simp only [Dec.own, hp]; exact .header hp
  | trailer => simp only [Dec.own, hp]; exact .trailer hp
  | chunks =>
    simp only [Dec.own, hp]
    rcases fetch_forward d with ⟨i, p, e, -⟩ | ⟨p, e, -⟩ <;> simp only [e]
    · exact .chunk i _ hp e hp
    · exact .chunkFail _ _ hp e

/-- What a chunk step comes to: TRAILER, or CHUNKS with fewer pixels left (R170, R180). -/
structure Advances (d d' : Dec) : Prop where
  width : d'.width = d.width
  height : d'.height = d.height
  phase : d'.phase = .trailer ∨ (d'.phase = .chunks ∧ d'.left.toNat < d.left.toNat)

/-- A well-formed chunk takes at least one pixel off those left. -/
theorem chunkEffect_advances (P : Params) {d : Dec} {i : Instr} (hp : d.phase = .chunks) (hleft : d.left ≠ 0)
    (hw : wellFormed i = true) : Advances d (d.chunkEffect P i) := by
  rcases chunkEffect_cases P d i with ⟨n, rfl, e⟩ | e <;> rw [e]
  · have hn := chunkCount_pos _ hw
    simp only [chunkCount] at hn
    rw [repeatPixel_eq d n hp]
    refine ⟨rfl, rfl, ?_⟩
    by_cases hle : d.left.toNat ≤ n
    · exact .inl (if_pos hle)
    · refine .inr ⟨if_neg hle, ?_⟩
      have hlt := d.left.isLt
      simp only [BitVec.toNat_ofNat]
      omega
  · rw [takePixel_endChunk P d _ hp]
    refine ⟨rfl, rfl, ?_⟩
    by_cases hlast : d.left = 1
    · exact .inl (if_pos hlast)
    · refine .inr ⟨if_neg hlast, ?_⟩
      simp only
      bv_omega

/-- A step in CHUNKS ends the job or gets on with it: what is decoded is well-formed (`encodeOfDecode`). -/
theorem chunkStep_cases (P : Params) {d : Dec} (hi : DecInv d) (hp : d.phase = .chunks) :
    ((d.own P).phase = .done ∧ (d.own P).width = d.width ∧ (d.own P).height = d.height) ∨ Advances d (d.own P) := by
  rcases hdec : decode d.unread with ⟨⟨⟩⟩ | ⟨i, rest⟩
  · left
    have hfail := fetch_failed hi.src_lt hi.inpos_le hdec
    simp only [Dec.own, hp, hfail]
    exact ⟨rfl, rfl, rfl⟩
  · right
    obtain ⟨hw, -⟩ := encodeOfDecode _ _ _ hdec
    rw [own_chunk hp hi.src_lt hdec]
    obtain ⟨hwidth, hheight, hphase⟩ := chunkEffect_advances P
      (d := { d with inpos := d.inpos + BitVec.ofNat 64 (Instr.length i) }) hp (hi.left_chunks hp) hw
    exact ⟨hwidth, hheight, hphase⟩

/-- From CHUNKS: a step for every pixel left, and one for the trailer. -/
theorem endsWithin_chunks (P : Params) (n : Nat) {d : Dec} (hi : DecInv d) (hp : d.phase = .chunks)
    (hn : d.left.toNat ≤ n) : EndsWithin P d (n + 1) := by
  induction n generalizing d with
  | zero =>
    have hzero : d.left = 0 := BitVec.eq_of_toNat_eq (Nat.le_zero.mp hn)
    exact absurd hzero (hi.left_chunks hp)
  | succ n ih =>
    rcases chunkStep_cases P hi hp with ⟨hdone, hw, hh⟩ | ⟨hw, hh, htrailer | ⟨hchunks, hlt⟩⟩
    · exact (endsWithin_of_done hdone (n + 1)).step hw hh
    · exact ((endsWithin_trailer P htrailer).mono (by omega)).step hw hh
    · exact (ih (decInv_change hi (own_change P d)) hchunks (by omega)).step hw hh

/-- Settles O54: the header step fails, or leaves the pixels of the count that it publishes (`endsWithin_chunks`). -/
theorem decodeJobEnds : Obligations.DecodeJobEnds := by
  intro s k d hd hi hp
  have hown : d.own s.params = d.header := by simp only [Dec.own, hp]
  have hends : EndsWithin s.params (d.own s.params)
      ((pixelCount (d.own s.params).width (d.own s.params).height).toNat + 1) := by
    have hi' := decInv_change hi (own_change s.params d)
    rw [hown] at hi' ⊢
    rcases header_cases d with ⟨w, h, ch, cs, p, e, -⟩ | ⟨c, p, -, e, -⟩
    · have hleft : d.header.left = pixelCount d.header.width d.header.height := by rw [e]
      by_cases hz : pixelCount w h = 0
      · have hphase : d.header.phase = .trailer := by rw [e]; exact if_pos hz
        exact (endsWithin_trailer s.params hphase).mono (by omega)
      · have hphase : d.header.phase = .chunks := by rw [e]; exact if_neg hz
        exact endsWithin_chunks s.params _ hi' hphase (by rw [hleft])
    · exact endsWithin_of_done (by rw [e]; rfl) _
  obtain ⟨n, hn, hdone, hw, hh⟩ := hends
  obtain ⟨t, ht, hd'⟩ := ticks_dec_eq (n + 1) s k d hd
  refine ⟨n + 1, t, _, ht, hd', hdone, ?_⟩
  rw [Function.iterate_succ_apply, hw, hh]
  omega

end Sys2Proof.DecodeEnds
end

section
/-! An encode job, from its start command to DONE (70_reset_and_hazards.md R144, R244, R251): the steps of the block are
the engine's own, and what they leave is known at every pixel. -/

namespace Sys2Proof.EncodeJob

open Sys2Proof.Machine Sys2Proof.HeaderTrailer

/-! ## The job -/

/-- An encode job: the block's parameters, the operands of ENC_START, and the pixels that the HOST appends. -/
structure Job where
  params : Params
  width : BitVec 32
  height : BitVec 32
  channels : Byte
  colorspace : Byte
  pixels : List Pixel

/-- The pixels as the encoder forms them (R131). -/
def Job.formed (J : Job) : List Pixel := J.pixels.map (formPixel J.channels)

/-- The HOST supplies exactly the header's pixels, and the job's output stays short of 2^64 bytes (R31, R97). -/
structure Job.Fits (J : Job) : Prop where
  count : J.pixels.length = J.width.toNat * J.height.toNat
  short : 22 + 5 * J.pixels.length < 2 ^ 64

/-- The HOST's moves and the engine's turns of the job (R244). -/
def Job.agenda (J : Job) (k : Nat) : List Move :=
  encodeAgenda k J.width J.height J.channels J.colorspace J.pixels

/-- The encoder once started and supplied. -/
def Job.encoder (J : Job) : Enc :=
  { phase := if pixelCount J.width J.height = 0 then .finish else .pixels
    width := J.width, height := J.height, channels := J.channels, colorspace := J.colorspace
    pp := .seed, hist := clearedHistory, run := 0, left := pixelCount J.width J.height, outpos := 14
    status := statusStarted, output := headerBytes J.width J.height J.channels J.colorspace, input := J.pixels }

/-- The encoder has consumed the first `n` pixels. -/
def Job.EncodedTo (J : Job) (n : Nat) (e : Enc) : Prop :=
  Encoded J.params J.width J.height J.channels J.colorspace (J.pixels.take n) e

theorem Job.formed_length (J : Job) : J.formed.length = J.pixels.length := List.length_map _

theorem Job.Fits.count_eq {J : Job} (hJ : J.Fits) : (pixelCount J.width J.height).toNat = J.pixels.length := by
  rw [pixelCount_toNat, hJ.count]

theorem Job.Fits.count_eq_zero_iff {J : Job} (hJ : J.Fits) : pixelCount J.width J.height = 0 ↔ J.pixels = [] := by
  rw [pixelCount_eq_zero_iff, ← hJ.count, List.length_eq_zero_iff]

/-- Before the first pixel the output is the header, and no chunk has gone out. -/
theorem Job.encodedTo_zero (J : Job) : J.EncodedTo 0 J.encoder := by
  refine ⟨⟨[], [], nofun, .nil _ _, ?_, rfl⟩, .inl rfl, rfl⟩
  simp only [Job.encoder, List.map_nil, List.flatten_nil, List.append_nil]

/-- The previous pixel and the cache of the encoder after `n` pixels are what those pixels leave (R54). -/
theorem Job.EncodedTo.follow {J : Job} {n : Nat} {e : Enc} (h : J.EncodedTo n e) :
    Machine.follow J.params .seed clearedHistory (J.formed.take n) = (e.pp, e.hist) := by
  rw [Job.formed, ← List.map_take]
  exact Encoded.follow h

/-- After `n` own steps, `n` pixels are consumed (`owns_pixels`). -/
theorem Job.owns_to {J : Job} (hJ : J.Fits) {n : Nat} (hn : n ≤ J.pixels.length) :
    ∃ e, Enc.owns J.params n J.encoder = some e ∧ J.EncodedTo n e ∧
      e.phase = (if J.pixels.drop n = [] then .finish else .pixels) ∧ e.left.toNat = J.pixels.length - n ∧
      e.input = J.pixels.drop n := by
  have hshort := hJ.short
  have hphase : J.encoder.phase = if J.pixels = [] then .finish else .pixels := by
    simp only [Job.encoder, hJ.count_eq_zero_iff]
  exact owns_pixels J.params J.width J.height J.channels J.colorspace n J.pixels [] J.encoder J.encodedTo_zero rfl
    hJ.count_eq (by rw [List.length_nil]; omega) hphase hn

/-! ## The finished job -/

/-- The finished encoder: header, chunks and terminator in the output, the chunks those of the formed pixels. -/
structure Job.Finished (J : Job) (is : List Instr) (e : Enc) : Prop where
  phase : e.phase = .done
  status : e.status = 0x06
  left : e.left = 0
  input : e.input = []
  output : e.output = headerBytes J.width J.height J.channels J.colorspace ++ (is.map encode).flatten ++ terminator
  wellFormed : ∀ i ∈ is, wellFormed i = true
  plays : Plays J.params .seed clearedHistory is J.formed e.pp e.hist

/-- EncFinish on an encoder that has consumed every pixel (R113). -/
theorem Job.finished_finish {J : Job} {e : Enc} (h : J.EncodedTo J.pixels.length e) (hleft : e.left = 0)
    (hinput : e.input = []) : ∃ is, J.Finished is e.finish := by
  obtain ⟨hflush, hrun, -⟩ := h.flush
  obtain ⟨is, out, hw, hplays, hout, hpixels⟩ := hflush.chunks
  rw [hrun, List.take_length] at hpixels
  have hformed : out = J.formed := (List.append_nil out).symm.trans hpixels
  subst hformed
  refine ⟨is, rfl, rfl, ?_, ?_, ?_, hw, ?_⟩
  · rw [encFinish_eq e (h.run.imp_right And.left)]; exact hleft
  · rw [encFinish_eq e (h.run.imp_right And.left)]; exact hinput
  · simp only [Enc.finish, outBytes_eq, hout]
  · simpa only [Enc.finish, outBytes_eq] using hplays

/-- A finished job's output is at most 22 bytes and five a pixel (R97). -/
theorem Job.Finished.output_length_le {J : Job} {is : List Instr} {e : Enc} (h : J.Finished is e) :
    e.output.length ≤ 22 + 5 * J.pixels.length := by
  have hchunks := encoded_length_le is h.wellFormed
  have hcount := h.plays.length
  rw [J.formed_length] at hcount
  have hheader : (headerBytes J.width J.height J.channels J.colorspace).length = 14 := rfl
  have hterm : terminator.length = 8 := rfl
  rw [h.output, List.length_append, List.length_append, hheader, hterm]
  omega

/-- After one own step for every pixel and one to finish, the job is finished (R144). -/
theorem Job.owns_finished {J : Job} (hJ : J.Fits) :
    ∃ e is, Enc.owns J.params (J.pixels.length + 1) J.encoder = some e ∧ J.Finished is e := by
  obtain ⟨e, howns, hencoded, hphase, hleft, hinput⟩ := J.owns_to hJ (le_refl _)
  rw [List.drop_length] at hphase hinput
  rw [Nat.sub_self] at hleft
  obtain ⟨is, hfin⟩ := J.finished_finish hencoded (BitVec.eq_of_toNat_eq hleft) hinput
  have hlen : e.finish.output.length < 2 ^ 64 := hfin.output_length_le.trans_lt hJ.short
  have hown : e.own J.params = some e.finish := by
    simp only [Enc.own, hphase, if_true, if_pos hlen]
  refine ⟨e.finish, is, ?_, hfin⟩
  rw [owns_add _ _ _ _ _ howns]
  simp only [Enc.owns, hown]

/-! ## The steps of the block -/

theorem steps_succ {s t : State} (h : step s = .next t) (n : Nat) : steps (n + 1) s = steps n t := by
  simp only [steps, h]

/-- The HOST starts a free encoder (R111). -/
theorem step_encStart {s : State} {k : Nat} {e : Enc} (w h : BitVec 32) (ch cs : Byte) (more : List Move)
    (he : s.encs[k]? = some e) (hf : e.free) (ha : s.agenda = .cmd (.encStart k w h ch cs) :: more) :
    step s = .next (State.setEnc { s with agenda := more } k (e.start w h ch cs)) := by
  simp only [step, ha, runMove, hostCmd]
  exact encStartCmd_of_free (s := { s with agenda := more }) w h ch cs he hf

/-- The HOST appends pixels (R46). -/
theorem step_encPixels {s : State} {k : Nat} {e : Enc} (ps : List Pixel) (more : List Move) (he : s.encs[k]? = some e)
    (ha : s.agenda = .cmd (.encPixels k ps) :: more) :
    step s = .next (State.setEnc { s with agenda := more } k { e with input := e.input ++ ps }) := by
  simp only [step, ha, runMove, hostCmd, encPixelsCmd, he]

/-- A started encoder with its pixels appended is the job's, whatever it held before (R111, R227). -/
theorem Job.start_supplied (J : Job) (e : Enc) :
    ({ e.start J.width J.height J.channels J.colorspace with
      input := (e.start J.width J.height J.channels J.colorspace).input ++ J.pixels } : Enc) = J.encoder := by
  rw [encStart_eq]
  rfl

/-- The HOST's two moves start and supply the encoder. -/
theorem Job.steps_supplied (J : Job) {s : State} {k : Nat} {e : Enc} (he : s.encs[k]? = some e) (hf : e.free)
    (n : Nat) :
    steps (n + 2) { s with agenda := J.agenda k } = steps n
      { s.setEnc k J.encoder with agenda := List.replicate (J.pixels.length + 1) (.tick (.enc k)) } := by
  rw [steps_succ (step_encStart (s := { s with agenda := J.agenda k }) _ _ _ _ _ he hf rfl),
    steps_succ (step_encPixels J.pixels _ (setEnc_get_same (by exact he)) rfl), J.start_supplied]
  simp only [State.setEnc, List.set_set]

/-- Then every step is the encoder's own: nothing else of the block changes. -/
theorem Job.steps_encode (J : Job) {s : State} {k n : Nat} {e e' : Enc} (hP : s.params = J.params)
    (he : s.encs[k]? = some e) (hf : e.free) (hn : n ≤ J.pixels.length + 1)
    (howns : Enc.owns J.params n J.encoder = some e') :
    steps (n + 2) { s with agenda := J.agenda k } =
      .next { s.setEnc k e' with agenda := List.replicate (J.pixels.length + 1 - n) (.tick (.enc k)) } := by
  rw [← hP] at howns
  have hsplit : List.replicate (J.pixels.length + 1) (Move.tick (.enc k)) =
      List.replicate n (.tick (.enc k)) ++ List.replicate (J.pixels.length + 1 - n) (.tick (.enc k)) := by
    rw [List.replicate_append_replicate, Nat.add_sub_cancel' hn]
  rw [J.steps_supplied he hf,
    steps_of_enc_turns n _ k J.encoder e' _ (by exact setEnc_get_same he) (by exact howns) (by exact hsplit)]
  simp only [State.setEnc, List.set_set]

/-- All the steps of a job: a finished encoder, an empty agenda, and the rest of the block as it was. -/
theorem Job.steps_finished {J : Job} (hJ : J.Fits) {s : State} {k : Nat} {e : Enc} (hP : s.params = J.params)
    (he : s.encs[k]? = some e) (hf : e.free) :
    ∃ e' is, J.Finished is e' ∧
      steps (J.pixels.length + 3) { s with agenda := J.agenda k } = .next { s.setEnc k e' with agenda := [] } := by
  obtain ⟨e', is, howns, hfin⟩ := J.owns_finished hJ
  refine ⟨e', is, hfin, ?_⟩
  have hsteps := J.steps_encode hP he hf (le_refl _) howns
  rwa [Nat.sub_self] at hsteps

/-- The steps of a job up to `n` pixels consumed. -/
theorem Job.steps_to {J : Job} (hJ : J.Fits) {s : State} {k n : Nat} {e : Enc} (hP : s.params = J.params)
    (he : s.encs[k]? = some e) (hf : e.free) (hn : n ≤ J.pixels.length) :
    ∃ v e', steps (n + 2) { s with agenda := J.agenda k } = .next v ∧ v.encs[k]? = some e' ∧ J.EncodedTo n e' ∧
      e'.phase = if J.pixels.drop n = [] then .finish else .pixels := by
  obtain ⟨e', howns, hencoded, hphase, -, -⟩ := J.owns_to hJ hn
  exact ⟨_, e', J.steps_encode hP he hf (Nat.le_succ_of_le hn) howns, setEnc_get_same he, hencoded, hphase⟩

/-! ## The statements -/

/-- Settles O53: after `N` own steps the encoder is in FINISH (`Job.steps_to`), and the one after them is EncFinish
(`Job.steps_finished`). -/
theorem encodeJobCompletes : Obligations.EncodeJobCompletes := by
  intro s k e w h ch cs ps he hf hcount hshort
  let J : Job := ⟨s.params, w, h, ch, cs, ps⟩
  have hJ : J.Fits := ⟨hcount, hshort⟩
  refine ⟨?finishing, ?done⟩
  case finishing =>
    obtain ⟨v, x, hsteps, hx, -, hphase⟩ := J.steps_to hJ rfl he hf (le_refl _)
    rw [List.drop_length, if_pos rfl] at hphase
    exact ⟨v, x, hsteps, hx, hphase⟩
  case done =>
    obtain ⟨e', is, hfin, hsteps⟩ := J.steps_finished hJ rfl he hf
    have hheader : e'.output.take 14 = headerBytes w h ch cs := by
      rw [hfin.output, List.append_assoc]
      exact List.take_left' rfl
    have hterm : e'.output.drop (e'.output.length - 8) = terminator := by
      rw [hfin.output, List.length_append]
      exact List.drop_left' rfl
    exact ⟨_, e', hsteps, setEnc_get_same he, hfin.phase, hfin.status, hfin.left, hfin.input, hheader, hterm, rfl, rfl⟩

/-- The tag of a well-formed chunk is a RUN's exactly for a RUN (R84). -/
theorem exists_tag {i : Instr} (hw : wellFormed i = true) :
    ∃ t rest, encode i = t :: rest ∧ (kind t = .run ↔ isPixelChunk i = false) := by
  have htag : Laws.EncodeTag.Statement i := by
    cases i with
    | rgb r g b => exact Laws.EncodeTag.rgb r g b
    | rgba r g b a => exact Laws.EncodeTag.rgba r g b a
    | run n => exact Laws.EncodeTag.run n
    | index i => exact Laws.EncodeTag.index i
    | diff dr dg db => exact Laws.EncodeTag.diff dr dg db
    | luma dg drDg dbDg => exact Laws.EncodeTag.luma dg drDg dbDg
  obtain ⟨t, rest, he, hk, -⟩ := htag hw
  refine ⟨t, rest, he, ?_⟩
  rw [hk]
  cases i <;> simp [Laws.EncodeTag.kindOf, isPixelChunk]

/-- Chunks that give a pixel begin with a RUN exactly when the first pixel is the previous one. -/
theorem plays_cons_first {P : Params} {pp pp' p : Pixel} {h h' : History} {is : List Instr} {out : List Pixel}
    (hp : Plays P pp h is (p :: out) pp' h') (hw : ∀ i ∈ is, wellFormed i = true) :
    ∃ i more, is = i :: more ∧ (isPixelChunk i = false ↔ p = pp) := by
  cases is with
  | nil => cases hp
  | cons i more =>
    refine ⟨i, more, rfl, ?_⟩
    generalize hout : p :: out = out₀ at hp
    cases hp with
    | run n hrest =>
      have hn : 1 ≤ n := chunkCount_pos _ (hw _ List.mem_cons_self)
      obtain ⟨n, rfl⟩ : ∃ m, n = m + 1 := ⟨n - 1, by omega⟩
      rw [List.replicate_succ, List.cons_append] at hout
      exact iff_of_true rfl (List.cons.inj hout).1
    | pixel _ hi hne hrest =>
      refine iff_of_false (by rw [hi]; nofun) ?_
      rw [(List.cons.inj hout).1]
      exact hne

/-- Settles O58: the chunks that follow the header play from SEED (`Job.Finished`), so the first one is a RUN exactly
when the first pixel is SEED (`plays_cons_first`). -/
theorem firstChunkIsARunForSeed : Obligations.FirstChunkIsARunForSeed := by
  intro s k e w h ch cs p ps he hf hcount hshort
  let J : Job := ⟨s.params, w, h, ch, cs, p :: ps⟩
  obtain ⟨e', is, hfin, hsteps⟩ := J.steps_finished ⟨hcount, hshort⟩ rfl he hf
  obtain ⟨i, more, rfl, hfirst⟩ := plays_cons_first hfin.plays hfin.wellFormed
  obtain ⟨tag, rest, hencode, hkind⟩ := exists_tag (hfin.wellFormed i List.mem_cons_self)
  have htag : e'.output[14]? = some tag := by
    rw [hfin.output, List.append_assoc, List.getElem?_append_right (by exact le_refl 14), List.map_cons,
      List.flatten_cons, hencode]
    rfl
  exact ⟨_, e', tag, hsteps, setEnc_get_same he, hfin.phase, htag, hkind.trans hfirst⟩

end Sys2Proof.EncodeJob
end

section
/-! Encoder and decoder in lockstep (10_state.md R54): over one pixel, at every pixel of an image, and at its end. The
decoder's own steps take the encoder's chunks off one by one (`Decoding`), and at every one of them the previous pixel and
the cache are what the pixels output so far leave (`Lockstep`). -/

namespace Sys2Proof.RoundTrip

open Sys2Proof.Machine Sys2Proof.HeaderTrailer Sys2Proof.DecoderChunk Sys2Proof.DecoderSteps Sys2Proof.CacheInvariant
  Sys2Proof.EncodeJob

/-! ## One pixel -/

theorem newPixel_pp (P : Params) (p : Pixel) (e : Enc) : (e.newPixel P p).pp = p := rfl

/-- Settles O52: the selected chunk is no RUN and stands for the pixel (`selectChunk_spec`), and both engines write it at
the slot of its hash. -/
theorem selectedChunkDecodesToThePixel : Obligations.SelectedChunkDecodesToThePixel := by
  intro s d e p hd hp hpp hhist
  obtain ⟨hpixel, hstands, -⟩ := selectChunk_spec s.params e.hist e.pp p
  have hexec := exec_pixelChunk hd hp hpixel
  rw [hpp, hhist, hstands] at hexec
  exact ⟨_, hexec, rfl, (newPixel_pp s.params p e).symm, (newPixel_hist s.params p e).symm⟩

/-! ## A decoder on the way through the job's stream -/

/-- The decoder has read the header and some chunks of the job's stream, and has the chunks `is` before it; `e` is the
finished encoder. -/
structure Decoding (J : Job) (e : Enc) (is : List Instr) (d : Dec) : Prop where
  src_lt : d.src.length < 2 ^ 64
  unread : d.unread = (is.map encode).flatten ++ terminator
  wf : ∀ i ∈ is, wellFormed i = true
  phase : d.phase = if is = [] then .trailer else .chunks
  status : d.status = 0x41
  header : d.width = J.width ∧ d.height = J.height ∧ d.channels = J.channels ∧ d.colorspace = J.colorspace
  plays : ∃ out, Plays J.params d.pp d.hist is out e.pp e.hist ∧ d.output ++ out = J.formed ∧
    d.left.toNat = out.length
  follow : Machine.follow J.params .seed clearedHistory d.output = (d.pp, d.hist)

/-- The decoder has read the whole of the job's stream. -/
structure Decoded (J : Job) (e : Enc) (d : Dec) : Prop where
  phase : d.phase = .done
  status : d.status = 0x46
  header : d.width = J.width ∧ d.height = J.height ∧ d.channels = J.channels ∧ d.colorspace = J.colorspace
  output : d.output = J.formed
  inpos : d.inpos.toNat = d.src.length
  pp : d.pp = e.pp
  hist : d.hist = e.hist

/-- Chunks give no pixel only where there are none. -/
theorem plays_nil_iff {P : Params} {pp pp' : Pixel} {h h' : History} {is : List Instr} {out : List Pixel}
    (hp : Plays P pp h is out pp' h') (hw : ∀ i ∈ is, wellFormed i = true) : is = [] ↔ out.length = 0 := by
  have hcount := length_le_count is hw
  rw [← hp.length] at hcount
  constructor
  · rintro rfl
    rw [hp.length, List.map_nil, List.sum_nil]
  · exact fun h0 => List.length_eq_zero_iff.mp (by omega)

/-- No chunk leaves everything as it was. -/
theorem plays_nil {P : Params} {pp pp' : Pixel} {h h' : History} {out : List Pixel}
    (hp : Plays P pp h [] out pp' h') : out = [] ∧ pp = pp' ∧ h = h' := by
  cases hp
  exact ⟨rfl, rfl, rfl⟩

/-- The chunk before the decoder is the first of `is`, and its own step takes it off. -/
theorem Decoding.step {J : Job} {e : Enc} {i : Instr} {is : List Instr} {d : Dec} (h : Decoding J e (i :: is) d) :
    Decoding J e is (d.own J.params) ∧ (d.own J.params).src = d.src := by
  obtain ⟨hsrc, hunread, hw, hphase, hstatus, hheader, ⟨out₀, hplays, hformed, hleft⟩, hfollow⟩ := h
  rw [if_neg (List.cons_ne_nil i is)] at hphase
  rw [List.map_cons, List.flatten_cons, List.append_assoc] at hunread
  have hdec : decode d.unread = .ok (i, (is.map encode).flatten ++ terminator) := by
    rw [hunread]
    exact ChunkRoundTrip.decodeOfEncode i _ (hw i List.mem_cons_self)
  have hw' : ∀ j ∈ is, wellFormed j = true := fun j hj => hw j (List.mem_cons_of_mem i hj)
  have hafter := unread_after hsrc hunread
  cases hplays with
  | @run _ _ _ out _ _ n hrest =>
    rw [List.length_append, List.length_replicate] at hleft
    have hlast : is ≠ [] ↔ d.left.toNat ≠ n := by
      rw [ne_eq, plays_nil_iff hrest hw']
      omega
    rw [own_run (is ≠ []) hphase hsrc hdec (by omega) hlast]
    refine ⟨⟨hsrc, hafter, hw', ?_, hstatus, hheader, ⟨out, hrest, ?_, ?_⟩, ?_⟩, rfl⟩
    · by_cases hnil : is = [] <;> simp only [hnil, ne_eq, not_true_eq_false, not_false_eq_true, if_true, if_false]
    · rw [List.append_assoc, hformed]
    · have hlt := d.left.isLt
      rw [BitVec.toNat_ofNat]
      omega
    · rw [follow_append, hfollow, follow_replicate]
  | @pixel _ _ _ out _ _ _ hpixel hne hrest =>
    rw [List.length_cons] at hleft
    have hlast : d.left = 1 ↔ is = [] := by
      rw [plays_nil_iff hrest hw', ← BitVec.toNat_inj, hleft]
      exact Nat.add_eq_right
    rw [own_pixel hpixel hphase hsrc hdec]
    refine ⟨⟨hsrc, hafter, hw', ?_, hstatus, hheader, ⟨out, hrest, ?_, ?_⟩, ?_⟩, rfl⟩
    · simp only [hlast]
    · rw [List.append_assoc]
      exact hformed
    · exact left_toNat_sub_one hleft
    · rw [follow_append, hfollow, Machine.follow, if_neg hne, Machine.follow]

/-- With no chunk before it the decoder's own step reads the terminator, and the job is done (R121). -/
theorem Decoding.trailer {J : Job} {e : Enc} {d : Dec} (h : Decoding J e [] d) :
    Decoded J e (d.own J.params) ∧ (d.own J.params).src = d.src := by
  obtain ⟨hsrc, hunread, -, hphase, hstatus, hheader, ⟨out, hplays, hformed, -⟩, -⟩ := h
  rw [if_pos rfl] at hphase
  obtain ⟨rfl, hpp, hhist⟩ := plays_nil hplays
  rw [List.append_nil] at hformed
  have hlen : d.unread.length = d.src.length - d.inpos.toNat := List.length_drop
  have hunreadLen : d.unread.length = 8 := congrArg List.length hunread
  have hle : d.inpos.toNat + 8 ≤ d.src.length := by omega
  have hmatch : d.unread.take 8 = terminator := by rw [hunread]; rfl
  have hend : (d.inpos + 8).toNat = d.src.length := (inpos_add (n := 8) hsrc hle).trans (by omega)
  have hown : d.own J.params = d.trailer := by simp only [Dec.own, hphase]
  rw [hown, trailer_read hsrc hle, if_pos hmatch, hstatus]
  exact ⟨⟨rfl, rfl, hheader, hformed, hend, hpp, hhist⟩, rfl⟩

theorem status_accepted : statusHeaderAccepted statusStarted = 0x41 := rfl

/-- The own step in HEADER reads the job's header, and has all the chunks before it (R117). -/
theorem decoding_header {J : Job} (hJ : J.Fits) {is : List Instr} {e : Enc} (h : J.Finished is e) (d : Dec) :
    Decoding J e is ((d.start e.output).own J.params) ∧ ((d.start e.output).own J.params).src = e.output := by
  have hsrc : (d.start e.output).src.length < 2 ^ 64 := h.output_length_le.trans_lt hJ.short
  have hunread : (d.start e.output).unread =
      headerBytes J.width J.height J.channels J.colorspace ++ ((is.map encode).flatten ++ terminator) := by
    rw [← List.append_assoc, ← h.output]
    rfl
  have hafter := (unread_append hsrc hunread (by nofun)).2
  have hown : (d.start e.output).own J.params = (d.start e.output).header := rfl
  have hcount : pixelCount J.width J.height = 0 ↔ is = [] := by
    rw [plays_nil_iff h.plays h.wellFormed, J.formed_length, List.length_eq_zero_iff, hJ.count_eq_zero_iff]
  rw [hown, header_accepted hsrc hunread]
  refine ⟨⟨hsrc, hafter, h.wellFormed, ?_, status_accepted, ⟨rfl, rfl, rfl, rfl⟩, ⟨J.formed, h.plays, rfl, ?_⟩, rfl⟩, rfl⟩
  · simp only [hcount]
  · rw [hJ.count_eq, J.formed_length]

/-! ## The decoder after any number of its own steps -/

/-- The output is the first of the formed pixels, and the previous pixel and the cache are what they leave (R54). -/
structure Lockstep (J : Job) (d : Dec) : Prop where
  output : d.output <+: J.formed
  follow : Machine.follow J.params .seed clearedHistory d.output = (d.pp, d.hist)

theorem lockstep_start (J : Job) (src : List Byte) (d : Dec) : Lockstep J (d.start src) := ⟨List.nil_prefix, rfl⟩

theorem Decoding.lockstep {J : Job} {e : Enc} {is : List Instr} {d : Dec} (h : Decoding J e is d) : Lockstep J d := by
  obtain ⟨out, -, hformed, -⟩ := h.plays
  exact ⟨⟨out, hformed⟩, h.follow⟩

theorem Decoded.lockstep {J : Job} {is : List Instr} {e : Enc} {d : Dec} (hfin : J.Finished is e) (h : Decoded J e d) :
    Lockstep J d := by
  refine ⟨by rw [h.output], ?_⟩
  rw [h.output, h.pp, h.hist]
  exact hfin.plays.follow

/-- A decoder that is done stays as it is (R222). -/
theorem Decoded.iterate {J : Job} {e : Enc} {d : Dec} (h : Decoded J e d) (n : Nat) : (Dec.own J.params)^[n] d = d :=
  Function.iterate_fixed (own_done h.phase) n

/-- From CHUNKS or TRAILER: lockstep after every step, and the job done after the chunks and the trailer. -/
theorem Decoding.iterate {J : Job} {is₀ : List Instr} {e : Enc} (hfin : J.Finished is₀ e) {is : List Instr} {d : Dec}
    (h : Decoding J e is d) (n : Nat) :
    Lockstep J ((Dec.own J.params)^[n] d) ∧
    (is.length < n → Decoded J e ((Dec.own J.params)^[n] d) ∧ ((Dec.own J.params)^[n] d).src = d.src) := by
  induction is generalizing d n with
  | nil =>
    cases n with
    | zero => exact ⟨h.lockstep, fun hn => absurd hn (Nat.not_lt_zero _)⟩
    | succ n =>
      obtain ⟨hdone, hsrc⟩ := h.trailer
      rw [Function.iterate_succ_apply, hdone.iterate]
      exact ⟨hdone.lockstep hfin, fun _ => ⟨hdone, hsrc⟩⟩
  | cons i is ih =>
    cases n with
    | zero => exact ⟨h.lockstep, fun hn => absurd hn (Nat.not_lt_zero _)⟩
    | succ n =>
      obtain ⟨hnext, hsrc⟩ := h.step
      obtain ⟨hlock, hend⟩ := ih hnext n
      rw [Function.iterate_succ_apply]
      refine ⟨hlock, fun hn => ?_⟩
      obtain ⟨hdone, hsrc'⟩ := hend (Nat.lt_of_succ_lt_succ hn)
      exact ⟨hdone, hsrc'.trans hsrc⟩

/-- Lockstep holds from the start command on (R54). -/
theorem lockstep_iterate {J : Job} (hJ : J.Fits) {is : List Instr} {e : Enc} (h : J.Finished is e) (d : Dec) (m : Nat) :
    Lockstep J ((Dec.own J.params)^[m] (d.start e.output)) := by
  cases m with
  | zero => exact lockstep_start J e.output d
  | succ m =>
    rw [Function.iterate_succ_apply]
    exact ((decoding_header hJ h d).1.iterate h m).1

/-- Two own steps more than there are pixels are enough for the header, the chunks and the trailer. -/
theorem decoded_iterate {J : Job} (hJ : J.Fits) {is : List Instr} {e : Enc} (h : J.Finished is e) (d : Dec) :
    Decoded J e ((Dec.own J.params)^[J.pixels.length + 2] (d.start e.output)) ∧
    ((Dec.own J.params)^[J.pixels.length + 2] (d.start e.output)).src = e.output := by
  obtain ⟨hstart, hsrc⟩ := decoding_header hJ h d
  have hcount := length_le_count is h.wellFormed
  rw [← h.plays.length, J.formed_length] at hcount
  obtain ⟨hdone, hsrc'⟩ := (hstart.iterate h (J.pixels.length + 1)).2 (by omega)
  rw [Function.iterate_succ_apply]
  exact ⟨hdone, hsrc'.trans hsrc⟩

/-- The steps of the block that decode: the start command, then the decoder's own steps (R116, R244). -/
theorem steps_decode {t : State} {j N n : Nat} {d : Dec} {src : List Byte} (hd : t.decs[j]? = some d) (hf : d.free)
    (hs : src.length < 2 ^ 64) (hn : n ≤ N) :
    ∃ u, steps (n + 1) { t with agenda := decodeAgenda j src N } = .next u ∧
      u.decs[j]? = some ((Dec.own t.params)^[n] (d.start src)) := by
  have hstart : step { t with agenda := decodeAgenda j src N } =
      .next (State.setDec { t with agenda := List.replicate N (.tick (.dec j)) } j (d.start src)) :=
    decStartCmd_of_free (s := { t with agenda := List.replicate N (.tick (.dec j)) }) hd hf hs
  rw [steps_succ hstart]
  refine steps_of_dec_turns n _ j (d.start src) (List.replicate (N - n) (.tick (.dec j))) (setDec_get_same hd) ?_
  rw [List.replicate_append_replicate, Nat.add_sub_cancel' hn]
  rfl

/-! ## The statements -/

/-- Settles O55: the encode job finishes (`Job.steps_finished`), and the decoder's own steps read the whole stream
(`decoded_iterate`). -/
theorem decodeOfEncodedImage : Obligations.DecodeOfEncodedImage := by
  intro s k j e d w h ch cs ps he hef hd hdf hcount hshort
  let J : Job := ⟨s.params, w, h, ch, cs, ps⟩
  have hJ : J.Fits := ⟨hcount, hshort⟩
  obtain ⟨e', is, hfin, hsteps⟩ := J.steps_finished hJ rfl he hef
  have hlen : e'.output.length < 2 ^ 64 := hfin.output_length_le.trans_lt hJ.short
  refine ⟨_, e', hsteps, setEnc_get_same he, ?_⟩
  obtain ⟨u, hu, hd'⟩ := steps_decode (t := { s.setEnc k e' with agenda := [] }) (j := j) (N := ps.length + 2) hd hdf hlen
    (le_refl _)
  obtain ⟨⟨hphase, hstatus, ⟨hw, hh, hch, hcs⟩, hout, hpos, hpp, hhist⟩, hsrc⟩ := decoded_iterate hJ hfin d
  rw [hsrc] at hpos
  exact ⟨u, _, hu, hd', hphase, hstatus, hout, hw, hh, hch, hcs, hpos, hpp, hhist⟩

/-- In lockstep the decoder's previous pixel and cache after `n` pixels are the encoder's after `n` pixels, where `n` is
the number of pixels output or one that the last own step passed inside a run (R54, R174). -/
theorem Lockstep.passed {J : Job} {d : Dec} (h : Lockstep J d) {n : Nat}
    (hn : n = d.output.length ∨ (n < d.output.length ∧
      ∃ d₀, Lockstep J d₀ ∧ d = d₀.own J.params ∧ d₀.output.length < n)) :
    Machine.follow J.params .seed clearedHistory (J.formed.take n) = (d.pp, d.hist) := by
  have htake {m : Nat} (hm : m ≤ d.output.length) : J.formed.take m = d.output.take m := by
    obtain ⟨rest, hrest⟩ := h.output
    rw [← hrest, List.take_append_of_le_length hm]
  rcases hn with rfl | ⟨hlt, d₀, h₀, rfl, hgt⟩
  · rw [htake (le_refl _), List.take_length]
    exact h.follow
  · rcases own_output J.params d₀ with hone | ⟨r, hout, hpp, hhist⟩
    · omega
    · have hr : n - d₀.output.length ≤ r := by
        rw [hout, List.length_append, List.length_replicate] at hlt
        omega
      rw [htake hlt.le, hout, List.take_append, List.take_of_length_le hgt.le, List.take_replicate, Nat.min_eq_left hr,
        follow_append, h₀.follow, follow_replicate, hpp, hhist]

/-- Settles O56: after every own step the decoder is in lockstep (`lockstep_iterate`), the encoder after `n` pixels
holds what they leave (`Job.EncodedTo.follow`), and a RUN leaves both as they were (`Lockstep.passed`). -/
theorem lockstepAtEveryPixel : Obligations.LockstepAtEveryPixel := by
  intro s k j e d w h ch cs ps he hef hd hdf hcount hshort
  let J : Job := ⟨s.params, w, h, ch, cs, ps⟩
  have hJ : J.Fits := ⟨hcount, hshort⟩
  obtain ⟨e', is, hfin, hsteps⟩ := J.steps_finished hJ rfl he hef
  have hlen : e'.output.length < 2 ^ 64 := hfin.output_length_le.trans_lt hJ.short
  have hdecode {m : Nat} (hm : m ≤ ps.length + 2) :=
    steps_decode (t := { s.setEnc k e' with agenda := [] }) (j := j) (N := ps.length + 2) hd hdf hlen hm
  refine ⟨_, e', hsteps, setEnc_get_same he, hfin.phase, ?_⟩
  intro decoding m hm
  obtain ⟨u, hu, hd'⟩ := hdecode hm
  have hlock := lockstep_iterate hJ hfin d m
  refine ⟨u, _, hu, hd', List.prefix_iff_eq_take.mp hlock.output, ?complete, ?passed⟩
  case complete =>
    rintro rfl
    exact (decoded_iterate hJ hfin d).1.output
  case passed =>
    intro n hn
    have hcases : n = ((Dec.own J.params)^[m] (d.start e'.output)).output.length ∨
        (n < ((Dec.own J.params)^[m] (d.start e'.output)).output.length ∧
          ∃ d₀, Lockstep J d₀ ∧ (Dec.own J.params)^[m] (d.start e'.output) = d₀.own J.params ∧
            d₀.output.length < n) := by
      refine hn.imp_right ?_
      rintro ⟨hlt, m', u', d'', rfl, hu', hd'', hgt⟩
      obtain ⟨u₀, hu₀, hd₀⟩ := hdecode (Nat.le_of_succ_le hm)
      cases hu'.symm.trans hu₀
      cases hd''.symm.trans hd₀
      exact ⟨hlt, _, lockstep_iterate hJ hfin d m', Function.iterate_succ_apply' _ _ _, hgt⟩
    have hnle : n ≤ ps.length := by
      have hle := hlock.output.length_le
      rw [J.formed_length] at hle
      rcases hcases with rfl | ⟨hlt, -⟩
      · exact hle
      · exact hlt.le.trans hle
    obtain ⟨v, e'', hv, he'', hencoded, -⟩ := J.steps_to hJ rfl he hef hnle
    have hboth := (hlock.passed hcases).symm.trans hencoded.follow
    exact ⟨v, e'', hv, he'', congrArg Prod.fst hboth, congrArg Prod.snd hboth⟩

end Sys2Proof.RoundTrip
end
